-- ==== Sys2Proof/Word.lean ====
section
/-! DEFINITION. The words the machine moves (00_scope.md R12) and the names of its eleven registers (10_state.md R31). -/

namespace Sys2Proof

/-- `u16`: the machine's native word (R10 XLEN, R12). -/
abbrev Word := BitVec 16

/-- `u8`: one byte of memory, of an instruction or of a port (R12). -/
abbrev Byte := BitVec 8

/-- `u17`: a data effective address (R10 EAWIDTH, R12). -/
abbrev EffAddr := BitVec 17

/-- The registers one register byte can name (R31): R1 to R8, then PC, SP and FP. A byte above 10 names none and is
rejected by the decoder (R33), so a register operand of an instruction is always one of these. -/
inductive Reg where
  | r1 | r2 | r3 | r4 | r5 | r6 | r7 | r8
  | pc
  | sp
  | fp
  deriving DecidableEq, Repr

end Sys2Proof
end

