-- ==== Sys2Proof/Config.lean ====
section
/-! DEFINITION. What an implementation fixes: the mnemonics and formats of the closed instruction set (30_encoding.md
R112, R120) and the parameters of 00_scope.md R10. Their reference values stand in Machine/Reference.lean and
Decode.lean. -/

namespace Sys2Proof

/-- The eight operand formats of R112. -/
inductive Format where
  /-- opcode, d, s -/
  | rr
  /-- opcode, d, imm.lo, imm.hi -/
  | ri
  /-- opcode, d, b, off.lo, off.hi -/
  | ld
  /-- opcode, b, off.lo, off.hi, s -/
  | sr
  /-- opcode, b, off.lo, off.hi, imm.lo, imm.hi -/
  | si
  /-- opcode, r -/
  | r
  /-- opcode, lo, hi -/
  | i
  /-- opcode alone -/
  | n
  deriving DecidableEq, Repr

/-- The length in bytes, opcode byte included (R110, R112). -/
def Format.length : Format → Nat
  | .rr => 3
  | .ri => 4
  | .ld => 5
  | .sr => 5
  | .si => 6
  | .r => 2
  | .i => 3
  | .n => 1

/-- The 33 mnemonics of R120, in the order of R121. -/
inductive Mnemonic where
  | movReg | movImm
  | load | storeReg | storeImm
  | addReg | addImm | subReg | subImm | mulReg | mulImm | divReg | divImm | andReg | andImm | orReg | orImm | cmpReg | cmpImm | inc | dec
  | pushReg | pushImm | pop
  | jmp | je | jg | jge | ja | jae | call | ret | hlt
  deriving DecidableEq, Repr

/-- The format column of R121. -/
def Mnemonic.format : Mnemonic → Format
  | .movReg => .rr
  | .movImm => .ri
  | .load => .ld
  | .storeReg => .sr
  | .storeImm => .si
  | .addReg => .rr
  | .addImm => .ri
  | .subReg => .rr
  | .subImm => .ri
  | .mulReg => .rr
  | .mulImm => .ri
  | .divReg => .rr
  | .divImm => .ri
  | .andReg => .rr
  | .andImm => .ri
  | .orReg => .rr
  | .orImm => .ri
  | .cmpReg => .rr
  | .cmpImm => .ri
  | .inc => .r
  | .dec => .r
  | .pushReg => .r
  | .pushImm => .i
  | .pop => .r
  | .jmp => .i
  | .je => .i
  | .jg => .i
  | .jge => .i
  | .ja => .i
  | .jae => .i
  | .call => .i
  | .ret => .n
  | .hlt => .n

/-- The place of a mnemonic in the order of R121, from 0. -/
def Mnemonic.index : Mnemonic → Fin 33
  | .movReg => 0
  | .movImm => 1
  | .load => 2
  | .storeReg => 3
  | .storeImm => 4
  | .addReg => 5
  | .addImm => 6
  | .subReg => 7
  | .subImm => 8
  | .mulReg => 9
  | .mulImm => 10
  | .divReg => 11
  | .divImm => 12
  | .andReg => 13
  | .andImm => 14
  | .orReg => 15
  | .orImm => 16
  | .cmpReg => 17
  | .cmpImm => 18
  | .inc => 19
  | .dec => 20
  | .pushReg => 21
  | .pushImm => 22
  | .pop => 23
  | .jmp => 24
  | .je => 25
  | .jg => 26
  | .jge => 27
  | .ja => 28
  | .jae => 29
  | .call => 30
  | .ret => 31
  | .hlt => 32

/-- Every mnemonic once, in the order of R121. -/
def Mnemonic.all : List Mnemonic :=
  [.movReg, .movImm] ++
  [.load, .storeReg, .storeImm] ++
  [.addReg, .addImm, .subReg, .subImm, .mulReg, .mulImm, .divReg, .divImm, .andReg, .andImm, .orReg, .orImm, .cmpReg, .cmpImm, .inc, .dec] ++
  [.pushReg, .pushImm, .pop] ++
  [.jmp, .je, .jg, .jge, .ja, .jae, .call, .ret, .hlt]

/-- `OPCODE_MAP` (R10, R121): the opcode byte of every mnemonic, in the order of `Mnemonic.index`. -/
structure OpcodeMap where
  bytes : Vector Byte 33
  deriving DecidableEq, Repr

/-- The parameters of R10. They are configuration, not state (R30): no step writes them. -/
structure Config where
  /-- `OPCODE_MAP` -/
  opcodes : OpcodeMap
  /-- `PORT_BASE`: the lowest address of the port range (R75) -/
  portBase : Word
  /-- `STRICT_LOCAL_FAULTS` (R285) -/
  strictLocalFaults : Bool
  /-- `ENTRY_HEADER` (R312) -/
  entryHeader : Bool
  /-- `MUL_SIGNED` (R183) -/
  mulSigned : Bool
  /-- `DIV_SIGNED` (R184) -/
  divSigned : Bool
  deriving DecidableEq, Repr

end Sys2Proof
end

