-- ==== Sys2Proof/Syntax.lean ====
section
/-! DEFINITION. The instructions: one constructor per row of spec/opcode_table.json, each with the fields its format
gives it (30_encoding.md R112): d destination, s source, b base, r the register of INC and DEC, imm, off, t. -/

namespace Sys2Proof

/-- The 33 instructions (R120), operands already decoded. -/
inductive Instr where
  /-- MOV_REG (R150) -/
  | movReg (d s : Reg)
  /-- MOV_IMM (R151) -/
  | movImm (d : Reg) (imm : Word)
  /-- LOAD (R160) -/
  | load (d b : Reg) (off : Word)
  /-- STORE_REG (R161) -/
  | storeReg (b : Reg) (off : Word) (s : Reg)
  /-- STORE_IMM (R162) -/
  | storeImm (b : Reg) (off imm : Word)
  /-- ADD_REG (R186) -/
  | addReg (d s : Reg)
  /-- ADD_IMM (R187) -/
  | addImm (d : Reg) (imm : Word)
  /-- SUB_REG (R188) -/
  | subReg (d s : Reg)
  /-- SUB_IMM (R189) -/
  | subImm (d : Reg) (imm : Word)
  /-- MUL_REG (R190) -/
  | mulReg (d s : Reg)
  /-- MUL_IMM (R191) -/
  | mulImm (d : Reg) (imm : Word)
  /-- DIV_REG (R192) -/
  | divReg (d s : Reg)
  /-- DIV_IMM (R193) -/
  | divImm (d : Reg) (imm : Word)
  /-- AND_REG (R194) -/
  | andReg (d s : Reg)
  /-- AND_IMM (R195) -/
  | andImm (d : Reg) (imm : Word)
  /-- OR_REG (R196) -/
  | orReg (d s : Reg)
  /-- OR_IMM (R197) -/
  | orImm (d : Reg) (imm : Word)
  /-- CMP_REG (R198) -/
  | cmpReg (d s : Reg)
  /-- CMP_IMM (R199) -/
  | cmpImm (d : Reg) (imm : Word)
  /-- INC (R200) -/
  | inc (r : Reg)
  /-- DEC (R201) -/
  | dec (r : Reg)
  /-- PUSH_REG (R234) -/
  | pushReg (s : Reg)
  /-- PUSH_IMM (R235) -/
  | pushImm (imm : Word)
  /-- POP (R236) -/
  | pop (d : Reg)
  /-- JMP (R252) -/
  | jmp (t : Word)
  /-- JE (R253) -/
  | je (t : Word)
  /-- JG (R254) -/
  | jg (t : Word)
  /-- JGE (R255) -/
  | jge (t : Word)
  /-- JA (R256) -/
  | ja (t : Word)
  /-- JAE (R257) -/
  | jae (t : Word)
  /-- CALL (R258) -/
  | call (t : Word)
  /-- RET (R259) -/
  | ret
  /-- HLT (R260) -/
  | hlt
  deriving DecidableEq, Repr

/-- The mnemonic of an instruction. -/
def Instr.mnemonic : Instr → Mnemonic
  | .movReg _ _ => .movReg
  | .movImm _ _ => .movImm
  | .load _ _ _ => .load
  | .storeReg _ _ _ => .storeReg
  | .storeImm _ _ _ => .storeImm
  | .addReg _ _ => .addReg
  | .addImm _ _ => .addImm
  | .subReg _ _ => .subReg
  | .subImm _ _ => .subImm
  | .mulReg _ _ => .mulReg
  | .mulImm _ _ => .mulImm
  | .divReg _ _ => .divReg
  | .divImm _ _ => .divImm
  | .andReg _ _ => .andReg
  | .andImm _ _ => .andImm
  | .orReg _ _ => .orReg
  | .orImm _ _ => .orImm
  | .cmpReg _ _ => .cmpReg
  | .cmpImm _ _ => .cmpImm
  | .inc _ => .inc
  | .dec _ => .dec
  | .pushReg _ => .pushReg
  | .pushImm _ => .pushImm
  | .pop _ => .pop
  | .jmp _ => .jmp
  | .je _ => .je
  | .jg _ => .jg
  | .jge _ => .jge
  | .ja _ => .ja
  | .jae _ => .jae
  | .call _ => .call
  | .ret => .ret
  | .hlt => .hlt

/-- The length of an instruction in bytes, which its opcode alone decides (R110). -/
def Instr.length (i : Instr) : Nat := i.mnemonic.format.length

end Sys2Proof
end

