-- ==== Sys2Proof/WellFormed.lean ====
section
/-! DEFINITION. What a configuration and an instruction must satisfy: `OPCODE_MAP` is injective (00_scope.md R10), and
an instruction is encodable where its opcode byte is its mnemonic's alone. Register operands and 16-bit fields need no
check: their types hold only what the encoding admits (R113, R124). -/

namespace Sys2Proof

/-- An instruction is well formed under a map when no other mnemonic shares its opcode byte, so that its bytes mean
this instruction and no other. Under an injective map every instruction is. -/
def Instr.wf (m : OpcodeMap) (i : Instr) : Bool :=
  Mnemonic.all.all fun k => k == i.mnemonic || m.bytes[k.index] != m.bytes[i.mnemonic.index]

/-- An opcode map is well formed when it is injective: no two mnemonics have one opcode byte (R10, R121). -/
def OpcodeMap.wf (m : OpcodeMap) : Bool :=
  Mnemonic.all.all fun k => Mnemonic.all.all fun k' => k' == k || m.bytes[k'.index] != m.bytes[k.index]

/-- A configuration is well formed when its opcode map is. Every other parameter may take every value of its type. -/
def Config.wf (c : Config) : Bool := c.opcodes.wf

end Sys2Proof
end

