-- ==== Sys2Proof/Decode.lean ====
section
/-! DEFINITION. The instruction encoding of 30_encoding.md: byte order, register bytes, the opcode map, the decoder
(total on any bytes, rejecting by name) and the encoder. -/

namespace Sys2Proof

/-! ### Bytes and words (R72, R73, R114) -/

/-- The 16-bit field whose low byte comes first: `{hi, lo}` (R114). -/
def wordOfBytes (lo hi : Byte) : Word := hi ++ lo

/-- `v[7:0]`. -/
def lowByte (v : Word) : Byte := v.extractLsb' 0 8

/-- `v[15:8]`. -/
def highByte (v : Word) : Byte := v.extractLsb' 8 8

/-! ### Register bytes (R113, R122) -/

/-- The register a register byte names; none above 10 (R113). -/
def regOfByte (b : Byte) : Option Reg :=
  match b.toNat with
  | 0 => some .r1
  | 1 => some .r2
  | 2 => some .r3
  | 3 => some .r4
  | 4 => some .r5
  | 5 => some .r6
  | 6 => some .r7
  | 7 => some .r8
  | 8 => some .pc
  | 9 => some .sp
  | 10 => some .fp
  | _ => none

/-- The register byte that names a register (R122). -/
def byteOfReg : Reg → Byte
  | .r1 => 0x00
  | .r2 => 0x01
  | .r3 => 0x02
  | .r4 => 0x03
  | .r5 => 0x04
  | .r6 => 0x05
  | .r7 => 0x06
  | .r8 => 0x07
  | .pc => 0x08
  | .sp => 0x09
  | .fp => 0x0A

/-! ### The opcode map (R121) -/

/-- The reference assignment of R121: 0x01 to 0x21 in the order of R120 (the spec's own choice, D1; log 2). -/
def referenceOpcodeMap : OpcodeMap where
  bytes := #v[
    0x01, 0x02, 0x03, 0x04, 0x05, 0x06, 0x07, 0x08, 0x09, 0x0A, 0x0B,
    0x0C, 0x0D, 0x0E, 0x0F, 0x10, 0x11, 0x12, 0x13, 0x14, 0x15, 0x16,
    0x17, 0x18, 0x19, 0x1A, 0x1B, 0x1C, 0x1D, 0x1E, 0x1F, 0x20, 0x21]

/-- The opcode byte of a mnemonic. -/
def opcodeByte (m : OpcodeMap) (k : Mnemonic) : Byte := m.bytes[k.index]

/-- `OPCODE_MAP^-1`: the mnemonic an opcode byte stands for, none for an unknown opcode (R123). On a map that is not
injective the first in the order of R121 is taken (log 3). -/
def mnemonicOfByte (m : OpcodeMap) (op : Byte) : Option Mnemonic :=
  Mnemonic.all.find? fun k => opcodeByte m k == op

/-! ### The bytes the decoder sees -/

/-- Six consecutive bytes of the instruction stream, the longest instruction (R110). A shorter instruction uses the
first of them only. -/
structure Window where
  b0 : Byte
  b1 : Byte
  b2 : Byte
  b3 : Byte
  b4 : Byte
  b5 : Byte
  deriving DecidableEq, Repr

/-- The window a list of bytes begins with, missing bytes zero. -/
def Window.ofBytes (bs : List Byte) : Window where
  b0 := bs.getD 0 0
  b1 := bs.getD 1 0
  b2 := bs.getD 2 0
  b3 := bs.getD 3 0
  b4 := bs.getD 4 0
  b5 := bs.getD 5 0

/-- The bytes of a window in stream order. -/
def Window.toList (w : Window) : List Byte := [w.b0, w.b1, w.b2, w.b3, w.b4, w.b5]

/-- What decoding ends in (R116, R117, R123). -/
inductive Decoded where
  /-- A valid instruction. -/
  | instr (i : Instr)
  /-- The opcode byte is in no assignment of the map (R123): local fault, one byte fetched. -/
  | unknownOpcode (op : Byte)
  /-- The first register byte in stream order that is above 10 (R117): fatal fault, all `length` bytes fetched. -/
  | invalidRegister (value : Byte) (length : Nat)
  deriving DecidableEq, Repr

/-! ### Decoding, format by format (R112, R116, R117) -/

/-- One register byte: the register it names, or the rejection of R117. -/
def decodeReg (length : Nat) (b : Byte) (k : Reg → Decoded) : Decoded :=
  match regOfByte b with
  | some r => k r
  | none => .invalidRegister b length

/-- Format RR: opcode, d, s. -/
def decodeRR (mk : Reg → Reg → Instr) (w : Window) : Decoded :=
  decodeReg 3 w.b1 fun d => decodeReg 3 w.b2 fun s => .instr (mk d s)

/-- Format RI: opcode, d, imm.lo, imm.hi. -/
def decodeRI (mk : Reg → Word → Instr) (w : Window) : Decoded :=
  decodeReg 4 w.b1 fun d => .instr (mk d (wordOfBytes w.b2 w.b3))

/-- Format LD: opcode, d, b, off.lo, off.hi. -/
def decodeLD (mk : Reg → Reg → Word → Instr) (w : Window) : Decoded :=
  decodeReg 5 w.b1 fun d => decodeReg 5 w.b2 fun b => .instr (mk d b (wordOfBytes w.b3 w.b4))

/-- Format SR: opcode, b, off.lo, off.hi, s. -/
def decodeSR (mk : Reg → Word → Reg → Instr) (w : Window) : Decoded :=
  decodeReg 5 w.b1 fun b => decodeReg 5 w.b4 fun s => .instr (mk b (wordOfBytes w.b2 w.b3) s)

/-- Format SI: opcode, b, off.lo, off.hi, imm.lo, imm.hi. -/
def decodeSI (mk : Reg → Word → Word → Instr) (w : Window) : Decoded :=
  decodeReg 6 w.b1 fun b => .instr (mk b (wordOfBytes w.b2 w.b3) (wordOfBytes w.b4 w.b5))

/-- Format R: opcode, r. -/
def decodeR (mk : Reg → Instr) (w : Window) : Decoded :=
  decodeReg 2 w.b1 fun r => .instr (mk r)

/-- Format I: opcode, lo, hi. -/
def decodeI (mk : Word → Instr) (w : Window) : Decoded :=
  .instr (mk (wordOfBytes w.b1 w.b2))

/-- The operands of a known opcode, in the format R121 gives it. -/
def decodeOperands (k : Mnemonic) (w : Window) : Decoded :=
  match k with
  | .movReg => decodeRR .movReg w
  | .movImm => decodeRI .movImm w
  | .load => decodeLD .load w
  | .storeReg => decodeSR .storeReg w
  | .storeImm => decodeSI .storeImm w
  | .addReg => decodeRR .addReg w
  | .addImm => decodeRI .addImm w
  | .subReg => decodeRR .subReg w
  | .subImm => decodeRI .subImm w
  | .mulReg => decodeRR .mulReg w
  | .mulImm => decodeRI .mulImm w
  | .divReg => decodeRR .divReg w
  | .divImm => decodeRI .divImm w
  | .andReg => decodeRR .andReg w
  | .andImm => decodeRI .andImm w
  | .orReg => decodeRR .orReg w
  | .orImm => decodeRI .orImm w
  | .cmpReg => decodeRR .cmpReg w
  | .cmpImm => decodeRI .cmpImm w
  | .inc => decodeR .inc w
  | .dec => decodeR .dec w
  | .pushReg => decodeR .pushReg w
  | .pushImm => decodeI .pushImm w
  | .pop => decodeR .pop w
  | .jmp => decodeI .jmp w
  | .je => decodeI .je w
  | .jg => decodeI .jg w
  | .jge => decodeI .jge w
  | .ja => decodeI .ja w
  | .jae => decodeI .jae w
  | .call => decodeI .call w
  | .ret => .instr .ret
  | .hlt => .instr .hlt

/-- The decoder: opcode byte, then the operands of its format (R116 to R118). -/
def decode (m : OpcodeMap) (w : Window) : Decoded :=
  match mnemonicOfByte m w.b0 with
  | none => .unknownOpcode w.b0
  | some k => decodeOperands k w

/-! ### The words as the opcode table numbers them -/

/-- The window whose bits are `w`, bit 0 the least significant bit of byte 0, bits from `nbits` up zero. -/
def Window.ofWord (nbits w : Nat) : Window :=
  let v := w % 2 ^ nbits
  { b0 := BitVec.ofNat 8 v
    b1 := BitVec.ofNat 8 (v / 2 ^ 8)
    b2 := BitVec.ofNat 8 (v / 2 ^ 16)
    b3 := BitVec.ofNat 8 (v / 2 ^ 24)
    b4 := BitVec.ofNat 8 (v / 2 ^ 32)
    b5 := BitVec.ofNat 8 (v / 2 ^ 40) }

/-- The instruction the decoder reads from a word of spec/opcode_table.json, under the reference opcode map, which is
the map that table uses (R121). -/
def decodeTableWord (nbits w : Nat) : Option Instr :=
  match decode referenceOpcodeMap (Window.ofWord nbits w) with
  | .instr i => some i
  | .unknownOpcode _ => none
  | .invalidRegister _ _ => none

/-! ### Encoding (R112) -/

/-- The operand bytes of an instruction, in stream order. -/
def operandBytes : Instr → List Byte
  | .movReg d s => [byteOfReg d, byteOfReg s]
  | .movImm d imm => [byteOfReg d, lowByte imm, highByte imm]
  | .load d b off => [byteOfReg d, byteOfReg b, lowByte off, highByte off]
  | .storeReg b off s => [byteOfReg b, lowByte off, highByte off, byteOfReg s]
  | .storeImm b off imm => [byteOfReg b, lowByte off, highByte off, lowByte imm, highByte imm]
  | .addReg d s => [byteOfReg d, byteOfReg s]
  | .addImm d imm => [byteOfReg d, lowByte imm, highByte imm]
  | .subReg d s => [byteOfReg d, byteOfReg s]
  | .subImm d imm => [byteOfReg d, lowByte imm, highByte imm]
  | .mulReg d s => [byteOfReg d, byteOfReg s]
  | .mulImm d imm => [byteOfReg d, lowByte imm, highByte imm]
  | .divReg d s => [byteOfReg d, byteOfReg s]
  | .divImm d imm => [byteOfReg d, lowByte imm, highByte imm]
  | .andReg d s => [byteOfReg d, byteOfReg s]
  | .andImm d imm => [byteOfReg d, lowByte imm, highByte imm]
  | .orReg d s => [byteOfReg d, byteOfReg s]
  | .orImm d imm => [byteOfReg d, lowByte imm, highByte imm]
  | .cmpReg d s => [byteOfReg d, byteOfReg s]
  | .cmpImm d imm => [byteOfReg d, lowByte imm, highByte imm]
  | .inc r => [byteOfReg r]
  | .dec r => [byteOfReg r]
  | .pushReg r => [byteOfReg r]
  | .pushImm v => [lowByte v, highByte v]
  | .pop r => [byteOfReg r]
  | .jmp v => [lowByte v, highByte v]
  | .je v => [lowByte v, highByte v]
  | .jg v => [lowByte v, highByte v]
  | .jge v => [lowByte v, highByte v]
  | .ja v => [lowByte v, highByte v]
  | .jae v => [lowByte v, highByte v]
  | .call v => [lowByte v, highByte v]
  | .ret => []
  | .hlt => []

/-- The bytes of an instruction: its opcode byte, then its operand bytes. -/
def encode (m : OpcodeMap) (i : Instr) : List Byte := opcodeByte m i.mnemonic :: operandBytes i

end Sys2Proof
end

