-- ==== Sys2Proof/Machine/Reference.lean ====
section
/-! DEFINITION. The reference values of the parameters of 00_scope.md R10, the spec's own choice (92_eei_decisions.md D1,
D3, D9 to D12; log 1). -/

namespace Sys2Proof.Machine

/-- The reference configuration: the one the test vectors of 95_test_vectors.md use. -/
def referenceConfig : Config where
  opcodes := referenceOpcodeMap
  portBase := 0xFFFE
  strictLocalFaults := false
  entryHeader := false
  mulSigned := false
  divSigned := false

end Sys2Proof.Machine
end

