-- ==== Sys2Proof/Machine/State.lean ====
section
/-! DEFINITION. The state of the machine (10_state.md R30), the host's streams and the event history beside it (R45, R50),
the reasons a step could stop, and the state after reset (70_reset_and_hazards.md R310). -/

namespace Sys2Proof.Machine

/-- The four flags (R38). -/
structure Flags where
  /-- carry or borrow -/
  cf : Bool
  /-- zero -/
  zf : Bool
  /-- sign -/
  sf : Bool
  /-- overflow -/
  of : Bool
  deriving DecidableEq, Repr

/-- The engine state (R43). Halted and Faulted are final: only reset leaves them. -/
inductive Engine where
  | running
  | halted
  | faulted
  deriving DecidableEq, Repr

/-- The fault kinds the CORE reports (60_exceptions.md R280). They are values in a report, not outcomes of `step`. -/
inductive FaultKind where
  /-- a register byte above 10; fatal (R281) -/
  | invalidRegister
  /-- a word access above 0xFFFE; local (R282) -/
  | addressOutOfRange
  /-- a division by zero; fatal (R283) -/
  | divisionByZero
  /-- an opcode byte outside the opcode map; local (R284) -/
  | unknownOpcode
  deriving DecidableEq, Repr

/-- One fault report (R290): the kind, the address of the faulting instruction's opcode byte, the recorded value
zero-extended to 17 bits, and whether the engine is Faulted now. -/
structure Report where
  kind : FaultKind
  pc : Word
  info : BitVec 17
  faulted : Bool
  deriving DecidableEq, Repr

/-- One observable event of a run (R45, R290, R319). -/
inductive Event where
  /-- the input port consumed this byte (20_memory.md R86) -/
  | consumed (b : Byte)
  /-- the output port emitted this byte (R87) -/
  | emitted (b : Byte)
  /-- a step reported this fault (R290) -/
  | reported (r : Report)
  deriving DecidableEq, Repr

/-- The outcome `fault` of a step: no instruction and no condition of this machine ends in it, so it has no
constructor. A fault of the spec is a next state with a report (R285, R286), a step request in Halted or Faulted is a
next state equal to the state before (R118), and a waiting port read is a next state too (R317). Safe: nothing stops. -/
inductive Fault where
  deriving DecidableEq, Repr

/-- The outcome `refused` of a step. -/
inductive Refusal where
  /-- Raised by an arm of `exec` whose instruction has no meaning yet; no arm of this model raises it. Safe: it stops
  where the machine goes on. -/
  | notModelled (mnemonic : String)
  deriving DecidableEq, Repr

/-- The memory array (R44): the bytes that differ from 0x00, by address. An unlisted address reads 0x00, the value the
spec gives every byte at reset (log 8). -/
abbrev Memory := List Host.Cell

/-- The canonical form: addresses strictly rising, below 65536, and no entry equal to what an unlisted address reads. -/
abbrev Memory.wf (m : Memory) : Prop :=
  m.Pairwise (fun c d => c.1 < d.1) ∧ ∀ c ∈ m, c.1 < 0x10000 ∧ c.2 ≠ 0

/-- The machine: the architectural state of R30 (`r1` to `mem`), the host's side of the ports and the history of the run
(R45, R50; logs 4 to 6), and the configuration, which no step writes (R10; log 1). -/
structure State where
  r1 : Word
  r2 : Word
  r3 : Word
  r4 : Word
  r5 : Word
  r6 : Word
  r7 : Word
  r8 : Word
  pc : Word
  sp : Word
  fp : Word
  flags : Flags
  halted : Bool
  engine : Engine
  mem : Memory
  /-- the input bytes the host has ready, oldest first (R45, R86) -/
  input : List Byte
  /-- the host has answered end of input: after `input` nothing more comes (R86) -/
  inputEnded : Bool
  /-- a step is waiting for the host's answer to a port read (R50, R317) -/
  inputWaiting : Bool
  /-- what the run has done so far that the host can observe, oldest first (R45, R290) -/
  history : List Event
  cfg : Config
  deriving DecidableEq, Repr

/-- The machine right after reset (R310), with the reference configuration, before the host has answered anything. -/
def State.reset : State where
  r1 := 0x0000
  r2 := 0x0000
  r3 := 0x0000
  r4 := 0x0000
  r5 := 0x0000
  r6 := 0x0000
  r7 := 0x0000
  r8 := 0x0000
  pc := 0x0000
  sp := 0xFFFE
  fp := 0xFFFE
  flags := ⟨false, false, false, false⟩
  halted := false
  engine := .running
  mem := []
  input := []
  inputEnded := false
  inputWaiting := false
  history := []
  cfg := referenceConfig

end Sys2Proof.Machine
end

