-- ==== Sys2Proof/Machine/Ops.lean ====
section
/-! DEFINITION. The named operations every instruction is made of: bytes of memory, registers, raising a fault, the two
ports, the word accesses and the stack. There is no return from a fault to model: no handler exists, and only reset
leaves Halted or Faulted (60_exceptions.md R288, R289; `State.applyReset` in Boundary.lean). -/

namespace Sys2Proof.Machine

/-! ### Bytes of memory (20_memory.md R70) -/

/-- The byte at an address; 0x00 where nothing is listed (10_state.md R44). -/
def Memory.read : Memory → Nat → Byte
  | [], _ => 0
  | (k, v) :: m, a => if k = a then v else Memory.read m a

/-- Puts a cell before the first cell of a higher address. -/
def Memory.insert (a : Nat) (b : Byte) : Memory → Memory
  | [] => [(a, b)]
  | (k, v) :: m => if a < k then (a, b) :: (k, v) :: m else (k, v) :: Memory.insert a b m

/-- Writes the byte at an address: the address's old cell goes, and a new one comes unless the byte is 0x00. -/
def Memory.write (m : Memory) (a : Nat) (b : Byte) : Memory :=
  let rest := m.filter fun c => c.1 != a
  if b = 0 then rest else Memory.insert a b rest

/-- Writes a word at an address, low byte first (R72). -/
def Memory.storeWord (m : Memory) (a : Nat) (v : Word) : Memory := (m.write a (lowByte v)).write (a + 1) (highByte v)

/-- The word at an address, low byte first (R72). -/
def Memory.loadWord (m : Memory) (a : Nat) : Word := wordOfBytes (m.read a) (m.read (a + 1))

/-- Writes consecutive bytes from an address upward. -/
def Memory.writeBytes (m : Memory) (a : Nat) : List Byte → Memory
  | [] => m
  | b :: bs => Memory.writeBytes (m.write a b) (a + 1) bs

/-! ### Registers (R34, R35) -/

/-- `x[i]` (R34). -/
def State.reg (s : State) : Reg → Word
  | .r1 => s.r1
  | .r2 => s.r2
  | .r3 => s.r3
  | .r4 => s.r4
  | .r5 => s.r5
  | .r6 => s.r6
  | .r7 => s.r7
  | .r8 => s.r8
  | .pc => s.pc
  | .sp => s.sp
  | .fp => s.fp

/-- `x[i] <- v` (R35): at once, PC, SP and FP like the rest. -/
def State.setReg (s : State) (r : Reg) (v : Word) : State :=
  match r with
  | .r1 => { s with r1 := v }
  | .r2 => { s with r2 := v }
  | .r3 => { s with r3 := v }
  | .r4 => { s with r4 := v }
  | .r5 => { s with r5 := v }
  | .r6 => { s with r6 := v }
  | .r7 => { s with r7 := v }
  | .r8 => { s with r8 := v }
  | .pc => { s with pc := v }
  | .sp => { s with sp := v }
  | .fp => { s with fp := v }

/-- Replaces the memory array. -/
def State.setMem (s : State) (m : Memory) : State := { s with mem := m }

/-- Writes all four flags. -/
def State.setFlags (s : State) (f : Flags) : State := { s with flags := f }

/-- PC past `n` fetched bytes, modulo 2^16 (R36, 30_encoding.md R116). -/
def State.advance (s : State) (n : Nat) : State := s.setReg .pc (s.pc + BitVec.ofNat 16 n)

/-! ### Faults (60_exceptions.md R285, R286, R290) -/

/-- The numeric code of a report, 0 for none (R280). -/
def reportCode : Option Report → Nat
  | none => 0
  | some r =>
    match r.kind with
    | .invalidRegister => 1
    | .addressOutOfRange => 2
    | .divisionByZero => 3
    | .unknownOpcode => 4

/-- Adds an event to the history. -/
def State.record (s : State) (e : Event) : State := { s with history := s.history ++ [e] }

/-- `raise Fatal(kind, info)` for the instruction at `a0` (R286): the engine is Faulted, the halted flag and all other
state stay. -/
def State.raiseFatal (s : State) (kind : FaultKind) (a0 : Word) (info : BitVec 17) : State :=
  { s.record (.reported ⟨kind, a0, info, true⟩) with engine := .faulted }

/-- `raise Local(kind, info)` for the instruction at `a0` (R285): the engine stays Running, unless
`STRICT_LOCAL_FAULTS` makes it fatal. -/
def State.raiseLocal (s : State) (kind : FaultKind) (a0 : Word) (info : BitVec 17) : State :=
  if s.cfg.strictLocalFaults then s.raiseFatal kind a0 info
  else s.record (.reported ⟨kind, a0, info, false⟩)

/-- The step at an unknown opcode byte (30_encoding.md R123): one byte fetched, nothing else touched. -/
def State.takeUnknownOpcode (s : State) (op : Byte) : State :=
  (s.advance 1).raiseLocal .unknownOpcode s.pc (op.setWidth 17)

/-- The step at an invalid register byte (R117): all `length` bytes fetched, nothing else touched. -/
def State.takeInvalidRegister (s : State) (value : Byte) (length : Nat) : State :=
  (s.advance length).raiseFatal .invalidRegister s.pc (value.setWidth 17)

/-! ### The ports (20_memory.md R75, R76, R86, R87) -/

/-- `inPorts(a)` (R75). -/
def State.inPorts (s : State) (a : Nat) : Bool := decide (s.cfg.portBase.toNat ≤ a ∧ a ≤ 0xFFFF)

/-- A word access at `ea` is a port access when either of its bytes lies in the port range (R83). -/
def State.touchesPorts (s : State) (ea : EffAddr) : Bool :=
  s.inPorts ea.toNat || s.inPorts (ea.toNat + 1)

/-- `PortIn()` (R86): the next input byte, consumed; 0x00 at end of input, nothing consumed; none while the host has no
answer. -/
def State.portIn (s : State) : Option (Byte × State) :=
  match s.input with
  | b :: rest => some (b, { s.record (.consumed b) with input := rest, inputWaiting := false })
  | [] => if s.inputEnded then some (0, { s with inputWaiting := false }) else none

/-- `PortOut(b)` (R87). -/
def State.portOut (s : State) (b : Byte) : State := s.record (.emitted b)

/-- A step whose port read has no answer (R317): it has not happened, and the machine waits. The next step request
runs the instruction again from its start (log 5). -/
def State.hold (s : State) : State := { s with inputWaiting := true }

/-! ### Word accesses (R79 to R81) -/

/-- How a data access ends. -/
inductive Access (α : Type) where
  /-- done, with the value read and the state after -/
  | done (v : α) (s : State)
  /-- a port read with no answer (R86) -/
  | waits
  /-- the address is out of range (R79) -/
  | outOfRange (ea : EffAddr)
  deriving DecidableEq, Repr

/-- `MemRead(ea, 2)` (R80): bounds, then ports, then the array. -/
def State.memRead (s : State) (ea : EffAddr) : Access Word :=
  if ea.toNat > 0xFFFE then .outOfRange ea
  else if s.touchesPorts ea then
    match s.portIn with
    | some (b, t) => .done (b.setWidth 16) t
    | none => .waits
  else .done (s.mem.loadWord ea.toNat) s

/-- `MemWrite(ea, 2, v)` (R81): bounds, then ports, then the array. -/
def State.memWrite (s : State) (ea : EffAddr) (v : Word) : Access Unit :=
  if ea.toNat > 0xFFFE then .outOfRange ea
  else if s.touchesPorts ea then .done () (s.portOut (lowByte v))
  else .done () (s.setMem (s.mem.storeWord ea.toNat v))

/-! ### The stack (43_stack.md R230, R231) -/

/-- `Push(v)` (R230): SP is written last. -/
def State.push (s : State) (v : Word) : Access Unit :=
  let nsp := s.sp - 2
  match s.memWrite (nsp.setWidth 17) v with
  | .done _ t => .done () (t.setReg .sp nsp)
  | .waits => .waits
  | .outOfRange ea => .outOfRange ea

/-- `Pop()` (R231): SP is written after the read. -/
def State.pop (s : State) : Access Word :=
  match s.memRead (s.sp.setWidth 17) with
  | .done v t => .done v (t.setReg .sp (s.sp + 2))
  | .waits => .waits
  | .outOfRange ea => .outOfRange ea

/-! ### Ending an instruction -/

/-- What a meaning answers. -/
abbrev Result := Host.Outcome State Fault Refusal

/-- Ends an instruction that made a data access. `s` is the state the instruction began in (PC at its opcode byte) and
`decoded` the state its execute phase began in: an out-of-range access keeps `decoded` and reports (R282), a waiting
one keeps `s` (R317). -/
def Access.finish {α : Type} (s decoded : State) (acc : Access α) (k : α → State → State) : Result :=
  match acc with
  | .done v t => .next (k v t)
  | .waits => .next s.hold
  | .outOfRange ea => .next (decoded.raiseLocal .addressOutOfRange s.pc ea)

end Sys2Proof.Machine
end

