-- ==== Sys2Proof/Machine/Flags.lean ====
section
/-! DEFINITION. The ALU functions of 42_alu.md, each a result word with its flags, and the branch conditions of
44_control.md R250. -/

namespace Sys2Proof.Machine

/-- ZF and SF of a result with the CF and OF given. -/
def resultFlags (r : Word) (cf of : Bool) : Flags where
  cf := cf
  zf := r == 0
  sf := r.msb
  of := of

/-- `AddOp(a, b)` (R181): a 17-bit sum. -/
def addOp (a b : Word) : Word × Flags :=
  let full : BitVec 17 := a.setWidth 17 + b.setWidth 17
  let r : Word := full.setWidth 16
  (r, resultFlags r full.msb (a.msb == b.msb && r.msb != a.msb))

/-- `SubOp(a, b)` (R182): a minus b. -/
def subOp (a b : Word) : Word × Flags :=
  let r := a - b
  (r, resultFlags r (decide (a.toNat < b.toNat)) (a.msb != b.msb && r.msb == b.msb))

/-- The 32-bit product of R183, signed or unsigned as `MUL_SIGNED` says. -/
def product (signed : Bool) (a b : Word) : BitVec 32 :=
  if signed then BitVec.ofInt 32 (a.toInt * b.toInt) else BitVec.ofNat 32 (a.toNat * b.toNat)

/-- `MulOp(a, b)` (R183): CF and OF when the product's high word is not zero. -/
def mulOp (signed : Bool) (a b : Word) : Word × Flags :=
  let p := product signed a b
  let r : Word := p.extractLsb' 0 16
  let lost := p.extractLsb' 16 16 != 0
  (r, resultFlags r lost lost)

/-- The quotient of R184 for a divisor that is not zero, truncated toward zero, signed or unsigned as `DIV_SIGNED`
says. -/
def quotient (signed : Bool) (a b : Word) : Word :=
  if signed then BitVec.ofInt 16 (a.toInt.tdiv b.toInt) else BitVec.ofNat 16 (a.toNat / b.toNat)

/-- `DivOp(a, b)` (R184); none for a zero divisor. -/
def divOp (signed : Bool) (a b : Word) : Option (Word × Flags) :=
  if b = 0 then none
  else
    let q := quotient signed a b
    some (q, resultFlags q false false)

/-- A result of AND or OR with `LogicFlags` (R185). -/
def logicOp (r : Word) : Word × Flags := (r, resultFlags r false false)

/-- INC (R200): CF as it was, OF from the value before. -/
def incOp (a : Word) (f : Flags) : Word × Flags :=
  (a + 1, resultFlags (a + 1) f.cf (a == 0x7FFF))

/-- DEC (R201): CF as it was, OF from the value before. -/
def decOp (a : Word) (f : Flags) : Word × Flags :=
  (a - 1, resultFlags (a - 1) f.cf (a == 0x8000))

/-! ### Branch conditions (R250) -/

/-- JE -/
def Flags.equal (f : Flags) : Bool := f.zf

/-- JG -/
def Flags.greater (f : Flags) : Bool := !f.zf && f.sf == f.of

/-- JGE -/
def Flags.greaterEqual (f : Flags) : Bool := f.sf == f.of

/-- JA -/
def Flags.above (f : Flags) : Bool := !f.cf && !f.zf

/-- JAE -/
def Flags.aboveEqual (f : Flags) : Bool := !f.cf

/-- The inspector's packing of the flags (10_state.md R48): bit 0 CF, bit 1 ZF, bit 2 SF, bit 3 OF. -/
def Flags.pack (f : Flags) : BitVec 4 :=
  BitVec.ofBool f.of ++ BitVec.ofBool f.sf ++ BitVec.ofBool f.zf ++ BitVec.ofBool f.cf

end Sys2Proof.Machine
end

