-- ==== Sys2Proof/Machine/Operands.lean ====
section
/-! DEFINITION. The operand forms: the effective address of a load or store (20_memory.md R77), and the shapes in which
the ALU, stack and jump instructions read their operands and write their results (42_alu.md R180). Each shape starts at
the state in which PC is the address of the instruction, moves PC past its bytes first, and reads every source before it
writes (30_encoding.md R116, R119). -/

namespace Sys2Proof.Machine

/-- `ea = zext_17(x[b]) + zext_17(off)` (R77): no sign extension and no wrap at 2^16. -/
def effAddr (base off : Word) : EffAddr := base.setWidth 17 + off.setWidth 17

/-- Writes an ALU result to its destination, and its flags (R180). -/
def State.writeAlu (s : State) (d : Reg) (r : Word × Flags) : State := (s.setReg d r.1).setFlags r.2

/-- A two-operand ALU instruction, register form (format RR): a = x[d], b = x[s], the result to x[d]. -/
def State.aluReg (st : State) (op : Word → Word → Word × Flags) (d s : Reg) : State :=
  let st1 := st.advance 3
  st1.writeAlu d (op (st1.reg d) (st1.reg s))

/-- A two-operand ALU instruction, immediate form (format RI): a = x[d], b = imm, the result to x[d]. -/
def State.aluImm (st : State) (op : Word → Word → Word × Flags) (d : Reg) (imm : Word) : State :=
  let st1 := st.advance 4
  st1.writeAlu d (op (st1.reg d) imm)

/-- A one-operand ALU instruction (format R). -/
def State.aluOne (st : State) (op : Word → Flags → Word × Flags) (r : Reg) : State :=
  let st1 := st.advance 2
  st1.writeAlu r (op (st1.reg r) st1.flags)

/-- A division of x[d] by `b` whose execute phase begins in `decoded`: the quotient to x[d], or the fatal fault of R283
with the dividend as its info. -/
def State.divide (st decoded : State) (d : Reg) (b : Word) : State :=
  match divOp decoded.cfg.divSigned (decoded.reg d) b with
  | some r => decoded.writeAlu d r
  | none => decoded.raiseFatal .divisionByZero st.pc ((decoded.reg d).setWidth 17)

/-- `if c: pc <- t` (44_control.md R252 to R257), format I. -/
def State.jumpIf (st : State) (c : Bool) (t : Word) : State :=
  let st1 := st.advance 3
  if c then st1.setReg .pc t else st1

end Sys2Proof.Machine
end

