-- ==== Sys2Proof/Machine/Alu.lean ====
section
/-! DEFINITION. The arithmetic, logical and compare instructions (42_alu.md). Every meaning takes the state in which PC is
the address of the instruction's opcode byte. -/

namespace Sys2Proof.Machine

/-- ADD_REG (R186). -/
def execAddReg (d s : Reg) (st : State) : Result :=
  .next (st.aluReg addOp d s)

/-- ADD_IMM (R187). -/
def execAddImm (d : Reg) (imm : Word) (st : State) : Result :=
  .next (st.aluImm addOp d imm)

/-- SUB_REG (R188). -/
def execSubReg (d s : Reg) (st : State) : Result :=
  .next (st.aluReg subOp d s)

/-- SUB_IMM (R189). -/
def execSubImm (d : Reg) (imm : Word) (st : State) : Result :=
  .next (st.aluImm subOp d imm)

/-- MUL_REG (R190). -/
def execMulReg (d s : Reg) (st : State) : Result :=
  .next (st.aluReg (mulOp st.cfg.mulSigned) d s)

/-- MUL_IMM (R191). -/
def execMulImm (d : Reg) (imm : Word) (st : State) : Result :=
  .next (st.aluImm (mulOp st.cfg.mulSigned) d imm)

/-- DIV_REG (R192): a zero divisor is the fatal fault of R283. -/
def execDivReg (d s : Reg) (st : State) : Result :=
  let st1 := st.advance 3
  .next (st.divide st1 d (st1.reg s))

/-- DIV_IMM (R193): `div Rd, 0` always faults. -/
def execDivImm (d : Reg) (imm : Word) (st : State) : Result :=
  .next (st.divide (st.advance 4) d imm)

/-- AND_REG (R194). -/
def execAndReg (d s : Reg) (st : State) : Result :=
  .next (st.aluReg (fun a b => logicOp (a &&& b)) d s)

/-- AND_IMM (R195). -/
def execAndImm (d : Reg) (imm : Word) (st : State) : Result :=
  .next (st.aluImm (fun a b => logicOp (a &&& b)) d imm)

/-- OR_REG (R196). -/
def execOrReg (d s : Reg) (st : State) : Result :=
  .next (st.aluReg (fun a b => logicOp (a ||| b)) d s)

/-- OR_IMM (R197). -/
def execOrImm (d : Reg) (imm : Word) (st : State) : Result :=
  .next (st.aluImm (fun a b => logicOp (a ||| b)) d imm)

/-- CMP_REG (R198): the flags of the difference, no register. -/
def execCmpReg (d s : Reg) (st : State) : Result :=
  let st1 := st.advance 3
  .next (st1.setFlags (subOp (st1.reg d) (st1.reg s)).2)

/-- CMP_IMM (R199): the flags of the difference, no register. -/
def execCmpImm (d : Reg) (imm : Word) (st : State) : Result :=
  let st1 := st.advance 4
  .next (st1.setFlags (subOp (st1.reg d) imm).2)

/-- INC (R200). -/
def execInc (r : Reg) (st : State) : Result :=
  .next (st.aluOne incOp r)

/-- DEC (R201). -/
def execDec (r : Reg) (st : State) : Result :=
  .next (st.aluOne decOp r)

end Sys2Proof.Machine
end

