-- ==== Sys2Proof/Machine/Control.lean ====
section
/-! DEFINITION. The jumps, CALL, RET and HLT (44_control.md). Every meaning takes the state in which PC is the address of
the instruction's opcode byte. No flag is written. -/

namespace Sys2Proof.Machine

/-- JMP (R252). -/
def execJmp (t : Word) (st : State) : Result :=
  .next (st.jumpIf true t)

/-- JE (R253). -/
def execJe (t : Word) (st : State) : Result :=
  .next (st.jumpIf st.flags.equal t)

/-- JG (R254). -/
def execJg (t : Word) (st : State) : Result :=
  .next (st.jumpIf st.flags.greater t)

/-- JGE (R255). -/
def execJge (t : Word) (st : State) : Result :=
  .next (st.jumpIf st.flags.greaterEqual t)

/-- JA (R256). -/
def execJa (t : Word) (st : State) : Result :=
  .next (st.jumpIf st.flags.above t)

/-- JAE (R257). -/
def execJae (t : Word) (st : State) : Result :=
  .next (st.jumpIf st.flags.aboveEqual t)

/-- CALL (R258): pushes the address of the next instruction, then jumps; a push out of range does not jump. -/
def execCall (t : Word) (st : State) : Result :=
  let st1 := st.advance 3
  (st1.push st1.pc).finish st st1 fun _ st2 => st2.setReg .pc t

/-- RET (R259). -/
def execRet (st : State) : Result :=
  let st1 := st.advance 1
  st1.pop.finish st st1 fun v st2 => st2.setReg .pc v

/-- HLT (R260): PC stays past the opcode byte. -/
def execHlt (st : State) : Result :=
  .next { st.advance 1 with halted := true, engine := .halted }

end Sys2Proof.Machine
end

