-- ==== Sys2Proof/Machine/LoadStore.lean ====
section
/-! DEFINITION. The load and store instructions (41_load_store.md). Every meaning takes the state in which PC is the
address of the instruction's opcode byte. No flag is written. -/

namespace Sys2Proof.Machine

/-- LOAD (R160). -/
def execLoad (d b : Reg) (off : Word) (st : State) : Result :=
  let st1 := st.advance 5
  (st1.memRead (effAddr (st1.reg b) off)).finish st st1 fun v t => t.setReg d v

/-- STORE_REG (R161). -/
def execStoreReg (b : Reg) (off : Word) (s : Reg) (st : State) : Result :=
  let st1 := st.advance 5
  (st1.memWrite (effAddr (st1.reg b) off) (st1.reg s)).finish st st1 fun _ t => t

/-- STORE_IMM (R162). -/
def execStoreImm (b : Reg) (off imm : Word) (st : State) : Result :=
  let st1 := st.advance 6
  (st1.memWrite (effAddr (st1.reg b) off) imm).finish st st1 fun _ t => t

end Sys2Proof.Machine
end

