-- ==== Sys2Proof/Machine/Move.lean ====
section
/-! DEFINITION. The move instructions (40_move.md). Every meaning takes the state in which PC is the address of the
instruction's opcode byte. No flag is written and nothing faults in execute. -/

namespace Sys2Proof.Machine

/-- MOV_REG (R150). -/
def execMovReg (d s : Reg) (st : State) : Result :=
  let st1 := st.advance 3
  .next (st1.setReg d (st1.reg s))

/-- MOV_IMM (R151). -/
def execMovImm (d : Reg) (imm : Word) (st : State) : Result :=
  .next ((st.advance 4).setReg d imm)

end Sys2Proof.Machine
end

