-- ==== Sys2Proof/Machine/Stack.lean ====
section
/-! DEFINITION. The stack instructions (43_stack.md). Every meaning takes the state in which PC is the address of the
instruction's opcode byte. No flag is written. -/

namespace Sys2Proof.Machine

/-- PUSH_REG (R234): the source is read before SP changes. -/
def execPushReg (s : Reg) (st : State) : Result :=
  let st1 := st.advance 2
  (st1.push (st1.reg s)).finish st st1 fun _ t => t

/-- PUSH_IMM (R235). -/
def execPushImm (imm : Word) (st : State) : Result :=
  let st1 := st.advance 3
  (st1.push imm).finish st st1 fun _ t => t

/-- POP (R236): the destination is written last, after SP. -/
def execPop (d : Reg) (st : State) : Result :=
  let st1 := st.advance 2
  st1.pop.finish st st1 fun v t => t.setReg d v

end Sys2Proof.Machine
end

