-- ==== Sys2Proof/Machine/Dispatch.lean ====
section
/-! DEFINITION. One arm per instruction, each a direct call of its meaning. -/

namespace Sys2Proof.Machine

def exec (i : Instr) (s : State) : Host.Outcome State Fault Refusal :=
  match i with
  | .movReg d r => Sys2Proof.Machine.execMovReg d r s
  | .movImm d imm => Sys2Proof.Machine.execMovImm d imm s
  | .load d b off => Sys2Proof.Machine.execLoad d b off s
  | .storeReg b off r => Sys2Proof.Machine.execStoreReg b off r s
  | .storeImm b off imm => Sys2Proof.Machine.execStoreImm b off imm s
  | .addReg d r => Sys2Proof.Machine.execAddReg d r s
  | .addImm d imm => Sys2Proof.Machine.execAddImm d imm s
  | .subReg d r => Sys2Proof.Machine.execSubReg d r s
  | .subImm d imm => Sys2Proof.Machine.execSubImm d imm s
  | .mulReg d r => Sys2Proof.Machine.execMulReg d r s
  | .mulImm d imm => Sys2Proof.Machine.execMulImm d imm s
  | .divReg d r => Sys2Proof.Machine.execDivReg d r s
  | .divImm d imm => Sys2Proof.Machine.execDivImm d imm s
  | .andReg d r => Sys2Proof.Machine.execAndReg d r s
  | .andImm d imm => Sys2Proof.Machine.execAndImm d imm s
  | .orReg d r => Sys2Proof.Machine.execOrReg d r s
  | .orImm d imm => Sys2Proof.Machine.execOrImm d imm s
  | .cmpReg d r => Sys2Proof.Machine.execCmpReg d r s
  | .cmpImm d imm => Sys2Proof.Machine.execCmpImm d imm s
  | .inc r => Sys2Proof.Machine.execInc r s
  | .dec r => Sys2Proof.Machine.execDec r s
  | .pushReg r => Sys2Proof.Machine.execPushReg r s
  | .pushImm v => Sys2Proof.Machine.execPushImm v s
  | .pop r => Sys2Proof.Machine.execPop r s
  | .jmp v => Sys2Proof.Machine.execJmp v s
  | .je v => Sys2Proof.Machine.execJe v s
  | .jg v => Sys2Proof.Machine.execJg v s
  | .jge v => Sys2Proof.Machine.execJge v s
  | .ja v => Sys2Proof.Machine.execJa v s
  | .jae v => Sys2Proof.Machine.execJae v s
  | .call v => Sys2Proof.Machine.execCall v s
  | .ret => Sys2Proof.Machine.execRet s
  | .hlt => Sys2Proof.Machine.execHlt s

end Sys2Proof.Machine
end

