-- ==== Sys2Proof/Machine/Fetch.lean ====
section
/-! DEFINITION. Instruction fetch (20_memory.md R84, R85): bytes of the array, never routed to the ports, never faulting,
wrapping from 0xFFFF to 0x0000. -/

namespace Sys2Proof.Machine

/-- `FetchByte(a)` (R84). -/
def State.fetchByte (s : State) (a : Word) : Byte := s.mem.read a.toNat

/-- The six bytes from PC on, of which decoding uses as many as the instruction has. Reading the others changes nothing
(R88; log 9). -/
def State.window (s : State) : Window where
  b0 := s.fetchByte s.pc
  b1 := s.fetchByte (s.pc + 1)
  b2 := s.fetchByte (s.pc + 2)
  b3 := s.fetchByte (s.pc + 3)
  b4 := s.fetchByte (s.pc + 4)
  b5 := s.fetchByte (s.pc + 5)

/-- Fetch and decode at PC (30_encoding.md R115 to R117). -/
def State.fetchDecode (s : State) : Decoded := decode s.cfg.opcodes s.window

/-- Places a window where the next step fetches, at PC and the five addresses after it, modulo 2^16. -/
def State.placeWindow (s : State) (w : Window) : State :=
  s.setMem ((((((s.mem.write s.pc.toNat w.b0).write (s.pc + 1).toNat w.b1).write (s.pc + 2).toNat w.b2).write
      (s.pc + 3).toNat w.b3).write (s.pc + 4).toNat w.b4).write (s.pc + 5).toNat w.b5)

end Sys2Proof.Machine
end

