-- ==== Sys2Proof/Machine/Step.lean ====
section
/-! DEFINITION. One step request (30_encoding.md R118). -/

namespace Sys2Proof.Machine

/-- `Step()` (R118). In Halted and Faulted no step happens: the state stays as it is (log 7). -/
def step (s : State) : Host.Outcome State Fault Refusal :=
  match s.engine with
  | .halted => .next s
  | .faulted => .next s
  | .running =>
    match s.fetchDecode with
    | .instr i => exec i s
    | .unknownOpcode op => .next (s.takeUnknownOpcode op)
    | .invalidRegister value length => .next (s.takeInvalidRegister value length)

/-- The instruction whose bits are `w`, as spec/opcode_table.json numbers them, stored at PC for the next step to fetch,
the engine Running, as fetching needs it (log 10). -/
def State.withFetchWord (s : State) (nbits w : Nat) : State :=
  { s.placeWindow (Window.ofWord nbits w) with halted := false, engine := .running }

end Sys2Proof.Machine
end

