-- ==== Sys2Proof/Machine/Boundary.lean ====
section
/-! DEFINITION. What the outside does to the CORE between steps (10_state.md R47): reset, load and the entry header, the
host's answers on the input port, and what it can see: the inspector's view and the history of the run. The step request
itself is `step`. -/

namespace Sys2Proof.Machine

/-! ### Reset and boot (70_reset_and_hazards.md R310 to R314) -/

/-- The transaction `reset` (R47, R310, R311): a new run, every piece of state at its reset value, memory cleared. The
configuration and the host's own input stream are not the CORE's to reset (R45; log 14). -/
def State.applyReset (s : State) : State :=
  { State.reset with cfg := s.cfg, input := s.input, inputEnded := s.inputEnded }

/-- What the loader reports to the driver (R291, R313). -/
inductive LoadReport where
  | loaded
  /-- the image is empty; memory is as it was -/
  | failed
  deriving DecidableEq, Repr

/-- The loader (R313): the image's bytes verbatim into the array from 0x0000 upward, never to the ports, cut to 65536. -/
def State.load (s : State) (image : List Byte) : State × LoadReport :=
  if image = [] then (s, .failed)
  else (s.setMem (s.mem.writeBytes 0 (image.take 0x10000)), .loaded)

/-- The entry point (R312): with `ENTRY_HEADER`, PC from the little-endian word at 0x0000; without, PC as reset left
it. -/
def State.enter (s : State) : State :=
  if s.cfg.entryHeader then s.setReg .pc (s.mem.loadWord 0) else s

/-- The boot order of R314: reset, then load, then the entry header if enabled; then steps. -/
def State.boot (s : State) (image : List Byte) : State := (s.applyReset.load image).1.enter

/-! ### The input port's host side (20_memory.md R86) -/

/-- The host has one more input byte ready. -/
def State.supplyByte (s : State) (b : Byte) : State := { s with input := s.input ++ [b] }

/-- The host answers end of input. -/
def State.endInput (s : State) : State := { s with inputEnded := true }

/-! ### What the outside sees (R47, R48, R290, R319) -/

/-- The consumed input prefix (R45). -/
def State.consumed (s : State) : List Byte :=
  s.history.filterMap fun e =>
    match e with
    | .consumed b => some b
    | .emitted _ => none
    | .reported _ => none

/-- The emitted output sequence (R45, R87). -/
def State.output (s : State) : List Byte :=
  s.history.filterMap fun e =>
    match e with
    | .consumed _ => none
    | .emitted b => some b
    | .reported _ => none

/-- The fault reports of the run's steps (R290, R319). -/
def State.reports (s : State) : List Report :=
  s.history.filterMap fun e =>
    match e with
    | .consumed _ => none
    | .emitted _ => none
    | .reported r => some r

/-- The report of a step from `s` to `t` (R290): none, or the one fault record it added to the history. -/
def stepReport (s t : State) : Option Report := (t.reports.drop s.reports.length).head?

/-- A run has ended (R319). -/
def State.ended (s : State) : Bool := s.engine != .running

/-- What the inspector reads (R48), beside the registers (`State.reg`) and memory (`Memory.read`): the packed flags, the
halted flag and the engine state. -/
structure Inspection where
  flags : BitVec 4
  halted : Bool
  engine : Engine
  deriving DecidableEq, Repr

/-- The inspector's read (R48): a value, and no new state. -/
def State.inspect (s : State) : Inspection := ⟨s.flags.pack, s.halted, s.engine⟩

end Sys2Proof.Machine
end

