-- ==== Sys2Proof/Safety.lean ====
section
/-! DEFINITION. The terms claims are stated in: the invariant of the machine, what two states have in common (frames), what
a fault, a data read, a data write and a stack access leave behind, in the words of the spec and not of the operations
that compute them. -/

namespace Sys2Proof.Machine

/-! ### Operands as the spec reads them -/

/-- The address of the next instruction: `a0 +16 length` (30_encoding.md R116). -/
def State.nextPc (s : State) (len : Nat) : Word := s.pc + BitVec.ofNat 16 len

/-- `x[r]` as an instruction of `len` bytes reads it: PC is already the address of the next instruction (R119). -/
def State.src (s : State) (len : Nat) (r : Reg) : Word := if r = .pc then s.nextPc len else s.reg r

/-- The word at an address of the array, low byte first (20_memory.md R72). -/
def State.wordAt (s : State) (a : Nat) : Word :=
  BitVec.ofNat 16 ((s.mem.read a).toNat + 256 * (s.mem.read (a + 1)).toNat)

/-- A word access one of whose bytes lies in the port range `PORT_BASE` to 0xFFFF (R75, R83). -/
def State.PortAccess (s : State) (ea : EffAddr) : Prop :=
  (s.cfg.portBase.toNat ≤ ea.toNat ∧ ea.toNat ≤ 0xFFFF) ∨ (s.cfg.portBase.toNat ≤ ea.toNat + 1 ∧ ea.toNat + 1 ≤ 0xFFFF)

/-- The places of the register bytes in a format, in stream order (R112). -/
def registerPlaces : Format → List Nat
  | .rr => [1, 2]
  | .ri => [1]
  | .ld => [1, 2]
  | .sr => [1, 4]
  | .si => [1]
  | .r => [1]
  | .i => []
  | .n => []

/-- The register an instruction names as its destination, if any (40_move.md to 43_stack.md). -/
def destination : Instr → Option Reg
  | .movReg d _ | .movImm d _ | .load d _ _ => some d
  | .addReg d _ | .addImm d _ | .subReg d _ | .subImm d _ | .mulReg d _ | .mulImm d _ => some d
  | .divReg d _ | .divImm d _ | .andReg d _ | .andImm d _ | .orReg d _ | .orImm d _ => some d
  | .inc r | .dec r => some r
  | .pop d => some d
  | .storeReg _ _ _ | .storeImm _ _ _ | .cmpReg _ _ | .cmpImm _ _ | .pushReg _ | .pushImm _ => none
  | .jmp _ | .je _ | .jg _ | .jge _ | .ja _ | .jae _ | .call _ | .ret | .hlt => none

/-- The instructions that move SP without naming it (10_state.md R37). -/
def movesStack : Instr → Bool
  | .pushReg _ | .pushImm _ | .pop _ | .call _ | .ret => true
  | .movReg _ _ | .movImm _ _ | .load _ _ _ | .storeReg _ _ _ | .storeImm _ _ _ | .addReg _ _ | .addImm _ _ => false
  | .subReg _ _ | .subImm _ _ | .mulReg _ _ | .mulImm _ _ | .divReg _ _ | .divImm _ _ | .andReg _ _ => false
  | .andImm _ _ | .orReg _ _ | .orImm _ _ | .cmpReg _ _ | .cmpImm _ _ | .inc _ | .dec _ => false
  | .jmp _ | .je _ | .jg _ | .jge _ | .ja _ | .jae _ | .hlt => false

/-- The instructions that write all four flags (R39). -/
def writesAllFlags : Instr → Bool
  | .addReg _ _ | .addImm _ _ | .subReg _ _ | .subImm _ _ | .mulReg _ _ | .mulImm _ _ | .divReg _ _ => true
  | .divImm _ _ | .andReg _ _ | .andImm _ _ | .orReg _ _ | .orImm _ _ | .cmpReg _ _ | .cmpImm _ _ => true
  | .movReg _ _ | .movImm _ _ | .load _ _ _ | .storeReg _ _ _ | .storeImm _ _ _ | .inc _ | .dec _ => false
  | .pushReg _ | .pushImm _ | .pop _ | .jmp _ | .je _ | .jg _ | .jge _ => false
  | .ja _ | .jae _ | .call _ | .ret | .hlt => false

/-- The instructions that write ZF, SF and OF and leave CF (R39). -/
def keepsCarry : Instr → Bool
  | .inc _ | .dec _ => true
  | .movReg _ _ | .movImm _ _ | .load _ _ _ | .storeReg _ _ _ | .storeImm _ _ _ | .addReg _ _ | .addImm _ _ => false
  | .subReg _ _ | .subImm _ _ | .mulReg _ _ | .mulImm _ _ | .divReg _ _ | .divImm _ _ | .andReg _ _ => false
  | .andImm _ _ | .orReg _ _ | .orImm _ _ | .cmpReg _ _ | .cmpImm _ _ | .pushReg _ | .pushImm _ => false
  | .pop _ | .jmp _ | .je _ | .jg _ | .jge _ | .ja _ | .jae _ => false
  | .call _ | .ret | .hlt => false

/-- The address an instruction reads a data word at, if it reads one (20_memory.md R71). -/
def State.readAddress (s : State) : Instr → Option EffAddr
  | .load _ b off => some (effAddr (s.src 5 b) off)
  | .pop _ => some (s.sp.setWidth 17)
  | .ret => some (s.sp.setWidth 17)
  | .movReg _ _ | .movImm _ _ | .storeReg _ _ _ | .storeImm _ _ _ | .addReg _ _ | .addImm _ _ | .subReg _ _ => none
  | .subImm _ _ | .mulReg _ _ | .mulImm _ _ | .divReg _ _ | .divImm _ _ | .andReg _ _ | .andImm _ _ => none
  | .orReg _ _ | .orImm _ _ | .cmpReg _ _ | .cmpImm _ _ | .inc _ | .dec _ | .pushReg _ | .pushImm _ => none
  | .jmp _ | .je _ | .jg _ | .jge _ | .ja _ | .jae _ | .call _ | .hlt => none

/-! ### The invariant -/

/-- The next step is a read of the input port (R80, R86). -/
def State.AtPortRead (s : State) : Prop :=
  s.engine = .running ∧
    ∃ i ea, s.fetchDecode = .instr i ∧ s.readAddress i = some ea ∧ ea.toNat ≤ 0xFFFE ∧ s.PortAccess ea

/-- What every state of a run satisfies. -/
structure State.Inv (s : State) : Prop where
  /-- memory keeps its canonical form (log 8) -/
  memory : Memory.wf s.mem
  /-- "The halted flag is true exactly when the engine state is Halted" (10_state.md R43) -/
  halted : s.halted = true ↔ s.engine = .halted
  /-- the engine is Faulted exactly when some report says so (60_exceptions.md R286, R290) -/
  faulted : s.engine = .faulted ↔ ∃ r, Event.reported r ∈ s.history ∧ r.faulted = true
  /-- only a read of the input port waits (70_reset_and_hazards.md R317) -/
  waiting : s.inputWaiting = true → s.AtPortRead

/-! ### Frames -/

/-- Every register but the listed ones is unchanged. -/
def SameRegs (except : List Reg) (s t : State) : Prop := ∀ q, q ∉ except → t.reg q = s.reg q

/-- Every byte of memory reads as before. -/
def SameMemory (s t : State) : Prop := ∀ a, t.mem.read a = s.mem.read a

/-- The input stream and the wait for it are unchanged. -/
def SameInput (s t : State) : Prop :=
  t.input = s.input ∧ t.inputEnded = s.inputEnded ∧ t.inputWaiting = s.inputWaiting

/-- The halted flag, the engine state and the configuration are unchanged. -/
def SameControl (s t : State) : Prop := t.halted = s.halted ∧ t.engine = s.engine ∧ t.cfg = s.cfg

/-- Everything but registers and flags is unchanged: memory, input, history (no output, no report), control. -/
def SameOutside (s t : State) : Prop :=
  SameMemory s t ∧ SameInput s t ∧ t.history = s.history ∧ SameControl s t

/-- Register `d` holds `v`; PC, unless it is `d`, is the next instruction's address; no other register changed. -/
def WritesReg (s t : State) (len : Nat) (d : Reg) (v : Word) : Prop :=
  t.reg d = v ∧ (d ≠ .pc → t.pc = s.nextPc len) ∧ SameRegs [d, .pc] s t

/-- PC is the next instruction's address and no other register changed. -/
def WritesNoReg (s t : State) (len : Nat) : Prop := t.pc = s.nextPc len ∧ SameRegs [.pc] s t

/-- An ALU result with its flags in `d`, nothing else changed (42_alu.md R180). -/
def AluResult (s t : State) (len : Nat) (d : Reg) (r : Word × Flags) : Prop :=
  WritesReg s t len d r.1 ∧ t.flags = r.2 ∧ SameOutside s t

/-! ### Faults -/

/-- The step at `s` reported a fault (60_exceptions.md R285, R286, R290): the report is added; the engine is Faulted if
the fault is fatal or local faults are strict, and as before if not; PC is past the `len` bytes decoded; everything else
is as before. -/
def Faults (s t : State) (fatal : Bool) (kind : FaultKind) (len : Nat) (info : BitVec 17) : Prop :=
  t.history = s.history ++ [.reported ⟨kind, s.pc, info, fatal || s.cfg.strictLocalFaults⟩] ∧
  (t.engine = if fatal || s.cfg.strictLocalFaults then .faulted else s.engine) ∧
  WritesNoReg s t len ∧ t.flags = s.flags ∧ SameMemory s t ∧ SameInput s t ∧ t.halted = s.halted ∧ t.cfg = s.cfg

/-- Where the first register byte above 10, at the places given, is `v`, a step at an instruction of mnemonic `k` is the
fatal fault InvalidRegister with `v` as its info (30_encoding.md R117). -/
def RejectsBadRegister (k : Mnemonic) (places : List Nat) : Prop :=
  ∀ (s : State) (v : Byte), s.engine = .running →
    mnemonicOfByte s.cfg.opcodes (s.fetchByte s.pc) = some k →
    ((places.map fun p => s.fetchByte (s.pc + BitVec.ofNat 16 p)).find? fun b => decide (10 < b.toNat)) = some v →
    ∃ t, step s = .next t ∧ Faults s t true .invalidRegister k.format.length (v.setWidth 17)

/-- Under every opcode map the instruction is its opcode byte followed by the operand bytes given; under the reference
map that byte is `op` (R112, R121). -/
def EncodesAs (i : Instr) (op : Byte) (operands : List Byte) : Prop :=
  (∀ m, encode m i = opcodeByte m i.mnemonic :: operands) ∧ opcodeByte referenceOpcodeMap i.mnemonic = op

/-! ### Data accesses -/

/-- The word at `ea` and the byte after it hold `v`, low byte first, and every other byte reads as before
(20_memory.md R81). -/
def StoresWord (s t : State) (ea : EffAddr) (v : Word) : Prop :=
  (t.mem.read ea.toNat).toNat = v.toNat % 256 ∧ (t.mem.read (ea.toNat + 1)).toNat = v.toNat / 256 ∧
    ∀ a, a ≠ ea.toNat → a ≠ ea.toNat + 1 → t.mem.read a = s.mem.read a

/-- What an instruction of `len` bytes that writes the word `v` at `ea` leaves (R79, R81): a local fault above 0xFFFE; a
byte emitted and memory unchanged in the port range; else the word stored. `regs` says what its registers are then. -/
def DataWrite (s t : State) (len : Nat) (ea : EffAddr) (v : Word) (regs : Prop) : Prop :=
  if 0xFFFE < ea.toNat then Faults s t false .addressOutOfRange len ea
  else
    regs ∧ t.flags = s.flags ∧ SameInput s t ∧ SameControl s t ∧
      ((s.PortAccess ea ∧ t.history = s.history ++ [.emitted (BitVec.ofNat 8 (v.toNat % 256))] ∧ SameMemory s t) ∨
        (¬ s.PortAccess ea ∧ t.history = s.history ∧ StoresWord s t ea v))

/-- The step waits for the host's answer to a port read: nothing changed but the mark that it waits
(70_reset_and_hazards.md R317). -/
def Waits (s t : State) : Prop := t = { s with inputWaiting := true }

/-- A port read that the host has answered (20_memory.md R86): it took the byte `b`, or found the end of input, and the
word is `v`. -/
def PortAnswer (s t : State) (v : Word) : Prop :=
  t.inputWaiting = false ∧ t.inputEnded = s.inputEnded ∧
    ((∃ b rest, s.input = b :: rest ∧ v.toNat = b.toNat ∧ t.input = rest ∧ t.history = s.history ++ [.consumed b]) ∨
      (s.input = [] ∧ s.inputEnded = true ∧ v = 0 ∧ t.input = [] ∧ t.history = s.history))

/-- What an instruction of `len` bytes that reads a word at `ea` leaves (R79, R80, R86): a local fault above 0xFFFE; in
the port range a wait while the host has no answer, else its answer; elsewhere the word of the array. `regs v` says what
its registers are when the word read is `v`. -/
def DataRead (s t : State) (len : Nat) (ea : EffAddr) (regs : Word → Prop) : Prop :=
  if 0xFFFE < ea.toNat then Faults s t false .addressOutOfRange len ea
  else
    (s.PortAccess ea ∧ s.input = [] ∧ s.inputEnded = false ∧ Waits s t) ∨
      ∃ v, regs v ∧ t.flags = s.flags ∧ SameMemory s t ∧ SameControl s t ∧
        ((s.PortAccess ea ∧ PortAnswer s t v) ∨
          (¬ s.PortAccess ea ∧ v = s.wordAt ea.toNat ∧ SameInput s t ∧ t.history = s.history))

/-- The registers after a push (43_stack.md R230): SP two lower, PC at `pc`, no other changed. -/
def PushedRegs (s t : State) (pc : Word) : Prop := t.sp = s.sp - 2 ∧ t.pc = pc ∧ SameRegs [.sp, .pc] s t

/-! ### Control transfers -/

/-- At `t` each conditional jump to `target` is taken exactly when the comparison of `a` with `b` it is named for holds,
signed for JG and JGE, unsigned for JA and JAE (44_control.md R250, the meaning column). -/
def JumpsCompare (t : State) (target a b : Word) : Prop :=
  (∃ u, exec (.je target) t = .next u ∧ u.pc = if a = b then target else t.nextPc 3) ∧
  (∃ u, exec (.jg target) t = .next u ∧ u.pc = if b.toInt < a.toInt then target else t.nextPc 3) ∧
  (∃ u, exec (.jge target) t = .next u ∧ u.pc = if b.toInt ≤ a.toInt then target else t.nextPc 3) ∧
  (∃ u, exec (.ja target) t = .next u ∧ u.pc = if b.toNat < a.toNat then target else t.nextPc 3) ∧
  (∃ u, exec (.jae target) t = .next u ∧ u.pc = if b.toNat ≤ a.toNat then target else t.nextPc 3)

/-- A division of PC by `b` in an instruction of `len` bytes: PC is the quotient, or, for a zero divisor, the next
instruction's address with the fatal fault reported (42_alu.md R184, 44_control.md R261). -/
def DividesPc (s t : State) (len : Nat) (b : Word) : Prop :=
  if b = 0x0000 then Faults s t true .divisionByZero len ((s.nextPc len).setWidth 17)
  else ∃ q, divOp s.cfg.divSigned (s.nextPc len) b = some q ∧ t.pc = q.1

end Sys2Proof.Machine
end

