-- ==== Sys2Proof/Certificates/Slice0/Obligations.lean ====
section
/-! DEFINITION. What this model is to be proved to do: statements from the numbered rules of spec/, whole-machine rules from
its prose, and the encoding's round trips. `Faults`, `DataRead`, `DataWrite` and the frames are in Safety.lean. -/

open Sys2Proof Sys2Proof.Machine

/-! ### Encoding (30_encoding.md) -/

/-- For every opcode map and every instruction well formed under it (all of them, where the map is injective), decoding
the bytes the encoder gives, whatever bytes follow them, gives the instruction back (R110 to R116). -/
def Obligations.DecodeOfEncodeIsTheInstruction : Prop :=
  ∀ (m : OpcodeMap) (i : Instr) (rest : List Byte), i.wf m = true →
    decode m (Window.ofBytes (encode m i ++ rest)) = .instr i

/-- The other direction: where six bytes decode to an instruction, they begin with exactly its encoding, as long as the
format says, and the instruction is decided by those bytes alone. No bit of an encoding is ignored (R110, R124). -/
def Obligations.EncodeOfDecodeIsTheBytes : Prop :=
  ∀ (m : OpcodeMap) (w : Window) (i : Instr), decode m w = .instr i →
    encode m i = w.toList.take i.length ∧
      ∀ w' : Window, w'.toList.take i.length = w.toList.take i.length → decode m w' = .instr i

/-- Under an injective opcode map every instruction is well formed, so the round trip holds of all of them; the
reference map is injective (R10, R121). -/
def Obligations.InjectiveMapsEncodeEveryInstruction : Prop :=
  referenceConfig.wf = true ∧ ∀ (c : Config) (i : Instr), c.wf = true → i.wf c.opcodes = true

/-- Words of 95_test_vectors.md and of the instruction rules, one or more of every family, decode under the reference map
to the instruction they stand for. -/
def Obligations.SpecWordsDecode : Prop :=
  decode referenceOpcodeMap (Window.ofBytes [0x01, 0x08, 0x00]) = .instr (.movReg .pc .r1) ∧
  decode referenceOpcodeMap (Window.ofBytes [0x02, 0x00, 0x04, 0x00]) = .instr (.movImm .r1 4) ∧
  decode referenceOpcodeMap (Window.ofBytes [0x03, 0x00, 0x01, 0x10, 0x00]) = .instr (.load .r1 .r2 0x10) ∧
  decode referenceOpcodeMap (Window.ofBytes [0x04, 0x01, 0x02, 0x00, 0x00]) = .instr (.storeReg .r2 2 .r1) ∧
  decode referenceOpcodeMap (Window.ofBytes [0x05, 0x02, 0x00, 0x03, 0xFF, 0x00]) = .instr (.storeImm .r3 0x0300 0x00FF) ∧
  decode referenceOpcodeMap (Window.ofBytes [0x0C, 0x00, 0x01]) = .instr (.divReg .r1 .r2) ∧
  decode referenceOpcodeMap (Window.ofBytes [0x0B, 0x00, 0x01, 0x01]) = .instr (.mulImm .r1 0x0101) ∧
  decode referenceOpcodeMap (Window.ofBytes [0x15, 0x09]) = .instr (.dec .sp) ∧
  decode referenceOpcodeMap (Window.ofBytes [0x17, 0x02, 0x01]) = .instr (.pushImm 0x0102) ∧
  decode referenceOpcodeMap (Window.ofBytes [0x1F, 0x00, 0x01]) = .instr (.call 0x0100) ∧
  decode referenceOpcodeMap (Window.ofBytes [0x21]) = .instr .hlt

/-! ### The step (R115 to R118, R123) -/

/-- One step request (R118). In Halted or Faulted nothing happens. In Running, when the bytes at PC decode to an
instruction, the step is that instruction's meaning at the same state; the meaning itself moves PC past the
instruction's bytes (R116), so nothing is added around it. -/
def Obligations.StepRunsTheDecodedInstruction : Prop :=
  ∀ s : State,
    (s.engine ≠ .running → step s = .next s) ∧
    (∀ i, s.engine = .running → decode s.cfg.opcodes s.window = .instr i → step s = exec i s)

/-- R123: an opcode byte outside the map is the local fault UnknownOpcode with the byte as its info; PC moves by exactly
1. Under the reference map these are 0x00 and 0x22 to 0xFF. -/
def Obligations.UnknownOpcodeIsALocalFault : Prop :=
  (∀ s : State, s.engine = .running → mnemonicOfByte s.cfg.opcodes (s.fetchByte s.pc) = none →
    ∃ t, step s = .next t ∧ Faults s t false .unknownOpcode 1 ((s.fetchByte s.pc).setWidth 17)) ∧
  (∀ op : Byte, mnemonicOfByte referenceOpcodeMap op = none ↔ (op = 0x00 ∨ 0x22 ≤ op.toNat))

/-- R117: for every opcode byte of the map, the first register byte of its format above 10, in stream order, is the fatal
fault InvalidRegister with that byte as its info; no register but PC, no flag, no memory and no port is touched. -/
def Obligations.InvalidRegisterIsAFatalFault : Prop :=
  ∀ k : Mnemonic, RejectsBadRegister k (registerPlaces k.format)

/-- Every step request is answered with a next state: no state and no instruction stops the model (R118: a step ends in
normal completion, a fault report or HLT; R317: a wait is not the end of a run; that a waiting step and a step request in
Halted or Faulted are answered with a next state is the model's form, logs 5 and 7). -/
def Obligations.EveryStepAnswersANextState : Prop :=
  ∀ s : State, ∃ t, step s = .next t

/-- A step does at most one thing the host can observe: it takes a byte, emits a byte or reports a fault. In particular it
reports at most one fault (R118, R287), and history, the model's list of them (log 6), is only ever added to. -/
def Obligations.OneEventPerStep : Prop :=
  ∀ s t : State, step s = .next t → t.history = s.history ∨ ∃ e, t.history = s.history ++ [e]

/-! ### Reset and the invariant -/

/-- R310: what reset leaves in every piece of architectural state, in a new machine and in one reset from any state. -/
def Obligations.ResetIsThePowerOnState : Prop :=
  ∀ s : State, s = State.reset ∨ (∃ u : State, s = u.applyReset) →
    (∀ q : Reg, s.reg q = if q = .sp ∨ q = .fp then 0xFFFE else 0x0000) ∧
    s.flags = ⟨false, false, false, false⟩ ∧ s.halted = false ∧ s.engine = .running ∧ ∀ a, s.mem.read a = 0x00

/-- The invariant holds right after reset, in a new machine and in one reset from any state, and once any image is
loaded (the empty history and the clear wait are the model's, logs 5 and 6). -/
def Obligations.ResetMeetsTheInvariant : Prop :=
  State.reset.Inv ∧ ∀ (s : State) (image : List Byte), s.applyReset.Inv ∧ (s.boot image).Inv

/-- Every step keeps the invariant, from every state that meets it: memory stays canonical, the halted flag says Halted
(R43), Faulted is what the reports say (R286, R290), and only a port read waits (R317). -/
def Obligations.EveryStepKeepsTheInvariant : Prop :=
  ∀ s t : State, s.Inv → step s = .next t → t.Inv

/-- The host's answers keep the invariant too: a byte supplied, and end of input (R86). -/
def Obligations.HostAnswersKeepTheInvariant : Prop :=
  ∀ (s : State) (b : Byte), s.Inv → (s.supplyByte b).Inv ∧ s.endInput.Inv

/-- Equal contents are equal data: two memories in canonical form that read the same at every address are the same
list. -/
def Obligations.CanonicalMemoriesAreDecidedByTheirBytes : Prop :=
  ∀ m n : Memory, Memory.wf m → Memory.wf n → (∀ a, Memory.read m a = Memory.read n a) → m = n

/-! ### Whole-machine rules -/

/-- R42: the halted flag is false at reset; only a step that runs HLT sets it; no step clears it; and, in a state that
meets the invariant, once it is set a step changes nothing. -/
def Obligations.OnlyHltHalts : Prop :=
  State.reset.halted = false ∧
  ∀ s t : State, step s = .next t →
    (s.halted = false → t.halted = true → s.engine = .running ∧ s.fetchDecode = .instr .hlt) ∧
    (s.halted = true → t.halted = true) ∧
    (s.Inv → s.halted = true → t = s)

/-- Faults are precise (R288, R15): a step that reports a fault changes no register but PC, no flag, no byte of memory and
no port stream; the report holds the address of the instruction's opcode byte, and says whether the engine is now
Faulted (R290). -/
def Obligations.FaultsArePrecise : Prop :=
  ∀ (s t : State) (r : Report), step s = .next t → t.history = s.history ++ [.reported r] →
    r.pc = s.pc ∧ (r.faulted = true ↔ t.engine = .faulted) ∧ SameRegs [.pc] s t ∧ t.flags = s.flags ∧
      SameMemory s t ∧ SameInput s t ∧ t.halted = s.halted ∧ t.cfg = s.cfg

/-- Faulted is entered only by a report that says so, and never left by a step (R43, R286, R289). -/
def Obligations.FaultedOnlyByAReport : Prop :=
  ∀ s t : State, step s = .next t →
    (s.engine ≠ .faulted → t.engine = .faulted → ∃ r, t.history = s.history ++ [.reported r] ∧ r.faulted = true) ∧
    (s.engine = .faulted → t = s)

/-- The configuration is no state: no step writes a parameter (R10, R30). -/
def Obligations.StepsNeverWriteTheConfiguration : Prop :=
  ∀ s t : State, step s = .next t → t.cfg = s.cfg

/-- R39: an instruction that is not an arithmetic, logical or compare instruction leaves all four flags, and INC and DEC
leave CF. -/
def Obligations.OnlyAluInstructionsWriteFlags : Prop :=
  ∀ (i : Instr) (s t : State), exec i s = .next t →
    (writesAllFlags i = false → t.flags.cf = s.flags.cf) ∧
    (writesAllFlags i = false → keepsCarry i = false → t.flags = s.flags)

/-- R35 to R37: a register other than PC changes in a step only if the instruction at PC names it as its destination, or
it is SP and the instruction is a push, pop, call or return. So FP changes only when an instruction names it. -/
def Obligations.RegistersChangeOnlyWhenNamed : Prop :=
  ∀ (s t : State) (q : Reg), step s = .next t → q ≠ .pc → t.reg q ≠ s.reg q →
    ∃ i, s.fetchDecode = .instr i ∧ (destination i = some q ∨ (q = .sp ∧ movesStack i = true))

/-- R92, for every PORT_BASE: no step writes a byte of the array that lies in the port range. -/
def Obligations.PortRangeBytesAreNeverWritten : Prop :=
  ∀ (s t : State) (a : Nat), step s = .next t → s.cfg.portBase.toNat ≤ a → a ≤ 0xFFFF →
    t.mem.read a = s.mem.read a

/-- R88, R292: no step takes input but through a port read: the input stream changes only in a step at a port read,
which records the byte it took, and then by that byte alone. The stream and the record are the model's (logs 4 and 6). -/
def Obligations.InputIsTakenByteByByte : Prop :=
  ∀ s t : State, step s = .next t →
    t.inputEnded = s.inputEnded ∧
      (t.input = s.input ∨ ∃ b, s.AtPortRead ∧ s.input = b :: t.input ∧ t.history = s.history ++ [.consumed b])

/-- R317, in the model's form of a wait (logs 4 and 5): a step that waits leaves the machine as it was, Running; asked again
with no answer it waits again; the host's next byte, or its end of input, lifts the wait, and the same step then
completes, taking that byte, or none. -/
def Obligations.OnlyTheHostsAnswerLiftsAWait : Prop :=
  ∀ s t : State, step s = .next t → s.inputWaiting = false → t.inputWaiting = true →
    Waits s t ∧ t.engine = .running ∧ step t = .next t ∧
    (∀ b : Byte, ∃ u, step (t.supplyByte b) = .next u ∧ u.inputWaiting = false ∧ u.engine = .running ∧
      u.history = s.history ++ [.consumed b]) ∧
    (∃ u, step t.endInput = .next u ∧ u.inputWaiting = false ∧ u.engine = .running ∧ u.history = s.history)

/-! ### Move (40_move.md) -/

/-- R150, MOV_REG, for every pair of registers: the destination takes the source's value (PC as a source is the next
instruction's address; PC as a destination is a jump), PC is past 3 bytes otherwise, and no other register, no flag and
nothing outside changes; its encoding; and the fatal fault of a register byte above 10. -/
def Obligations.MovRegCopiesARegister : Prop :=
  (∀ (d r : Reg) (s : State), ∃ t, exec (.movReg d r) s = .next t ∧
    WritesReg s t 3 d (s.src 3 r) ∧ t.flags = s.flags ∧ SameOutside s t) ∧
  (∀ d r, EncodesAs (.movReg d r) 0x01 [byteOfReg d, byteOfReg r]) ∧ RejectsBadRegister .movReg [1, 2]

/-- R151, MOV_IMM: the destination takes the immediate (PC as a destination is a jump), PC is past 4 bytes otherwise, and
no other register, no flag and nothing outside changes; its encoding; and the fatal fault of a register byte above 10. -/
def Obligations.MovImmLoadsAWord : Prop :=
  (∀ (d : Reg) (imm : Word) (s : State), ∃ t, exec (.movImm d imm) s = .next t ∧
    WritesReg s t 4 d imm ∧ t.flags = s.flags ∧ SameOutside s t) ∧
  (∀ d imm, EncodesAs (.movImm d imm) 0x02 [byteOfReg d, lowByte imm, highByte imm]) ∧
  RejectsBadRegister .movImm [1]

/-! ### Load and store (41_load_store.md) -/

/-- R77: the effective address is the exact sum of base and offset; it neither wraps nor sign-extends. -/
def Obligations.EffectiveAddressIsTheExactSum : Prop :=
  ∀ base off : Word, (effAddr base off).toNat = base.toNat + off.toNat

/-- LOAD (R160) at every address: above 0xFFFE the local fault with the address as its info and nothing written; in the port
range the host's byte zero-extended, 0 at end of input, or a wait; else the word of the array. The destination takes it,
and no other register but PC, no flag and no byte of memory changes; its encoding and its decode fault. The
wait takes the model's form (log 5: a next state that only carries the mark). -/
def Obligations.LoadReadsAWord : Prop :=
  (∀ (d b : Reg) (off : Word) (s : State), ∃ t, exec (.load d b off) s = .next t ∧
    DataRead s t 5 (effAddr (s.src 5 b) off) fun v => WritesReg s t 5 d v) ∧
  (∀ d b off, EncodesAs (.load d b off) 0x03 [byteOfReg d, byteOfReg b, lowByte off, highByte off]) ∧
  RejectsBadRegister .load [1, 2]

/-- R161, STORE_REG, at every address: above 0xFFFE the local fault with the address as its info and nothing written; in the
port range the low byte emitted and no memory changed; else the word stored. The only bytes of memory that change are the
two at the effective address, and no register but PC and no flag changes; its encoding and its decode fault. -/
def Obligations.StoreRegWritesAWord : Prop :=
  (∀ (b : Reg) (off : Word) (r : Reg) (s : State), ∃ t, exec (.storeReg b off r) s = .next t ∧
    DataWrite s t 5 (effAddr (s.src 5 b) off) (s.src 5 r) (WritesNoReg s t 5)) ∧
  (∀ b off r, EncodesAs (.storeReg b off r) 0x04 [byteOfReg b, lowByte off, highByte off, byteOfReg r]) ∧
  RejectsBadRegister .storeReg [1, 4]

/-- R162, STORE_IMM, at every address: as STORE_REG, with the immediate as the word, in 6 bytes; its encoding and its decode
fault. -/
def Obligations.StoreImmWritesAWord : Prop :=
  (∀ (b : Reg) (off imm : Word) (s : State), ∃ t, exec (.storeImm b off imm) s = .next t ∧
    DataWrite s t 6 (effAddr (s.src 6 b) off) imm (WritesNoReg s t 6)) ∧
  (∀ b off imm, EncodesAs (.storeImm b off imm) 0x05
    [byteOfReg b, lowByte off, highByte off, lowByte imm, highByte imm]) ∧
  RejectsBadRegister .storeImm [1]

/-! ### The ALU functions (42_alu.md section 1) -/

/-- R181: the sum modulo 2^16 and its four flags. -/
def Obligations.AddOpFlags : Prop :=
  ∀ a b : Word,
    (addOp a b).1.toNat = (a.toNat + b.toNat) % 0x10000 ∧
    ((addOp a b).2.cf = true ↔ 0x10000 ≤ a.toNat + b.toNat) ∧
    ((addOp a b).2.zf = true ↔ (addOp a b).1 = 0x0000) ∧
    (addOp a b).2.sf = (addOp a b).1.getLsbD 15 ∧
    ((addOp a b).2.of = true ↔ a.getLsbD 15 = b.getLsbD 15 ∧ (addOp a b).1.getLsbD 15 ≠ a.getLsbD 15)

/-- R182: the difference modulo 2^16 and its four flags. (The range that OF marks is in AddThenSubtractIsTheIdentity.) -/
def Obligations.SubOpFlags : Prop :=
  ∀ a b : Word,
    ((subOp a b).1.toNat : Int) = ((a.toNat : Int) - b.toNat) % 0x10000 ∧
    ((subOp a b).2.cf = true ↔ a.toNat < b.toNat) ∧
    ((subOp a b).2.zf = true ↔ (subOp a b).1 = 0x0000) ∧
    (subOp a b).2.sf = (subOp a b).1.getLsbD 15 ∧
    ((subOp a b).2.of = true ↔ a.getLsbD 15 ≠ b.getLsbD 15 ∧ (subOp a b).1.getLsbD 15 = b.getLsbD 15)

/-- R183: the low word of the 32-bit product; CF and OF exactly when its high word is not zero, under both values of
MUL_SIGNED; the result word is the same under both. -/
def Obligations.MulOpFlags : Prop :=
  ∀ (signed : Bool) (a b : Word), ∃ p : Nat, p < 2 ^ 32 ∧
    (p : Int) = (if signed then a.toInt * b.toInt else (a.toNat : Int) * b.toNat) % 2 ^ 32 ∧
    (mulOp signed a b).1.toNat = p % 0x10000 ∧
    ((mulOp signed a b).2.cf = true ↔ p / 0x10000 ≠ 0) ∧
    ((mulOp signed a b).2.of = true ↔ p / 0x10000 ≠ 0) ∧
    ((mulOp signed a b).2.zf = true ↔ (mulOp signed a b).1 = 0x0000) ∧
    (mulOp signed a b).2.sf = (mulOp signed a b).1.getLsbD 15 ∧
    (mulOp signed a b).1 = a * b

/-- R184: no result for a zero divisor; else the quotient truncated toward zero, CF = OF = 0, ZF and SF from it. -/
def Obligations.DivOpQuotient : Prop :=
  ∀ (signed : Bool) (a b : Word),
    (divOp signed a b = none ↔ b = 0x0000) ∧
    ∀ (q : Word) (f : Flags), divOp signed a b = some (q, f) →
      (signed = false → q.toNat = a.toNat / b.toNat) ∧
      (signed = true → (q.toNat : Int) = (a.toInt.tdiv b.toInt) % 0x10000) ∧
      f.cf = false ∧ f.of = false ∧ (f.zf = true ↔ q = 0x0000) ∧ f.sf = q.getLsbD 15

/-- What the flags mean to a program: subtracting what was added gives the first operand back (R202's law), CF is the
unsigned carry and then the unsigned borrow, and OF is set exactly when the signed sum, and then the signed difference,
leaves [-32768, 32767] (the spec's own inference in R182; two's complement is its general knowledge, log 13). -/
def Obligations.AddThenSubtractIsTheIdentity : Prop :=
  ∀ (d r : Reg) (s : State), d ≠ r → d ≠ .pc → r ≠ .pc →
    ∃ t u, exec (.addReg d r) s = .next t ∧ exec (.subReg d r) t = .next u ∧ u.reg d = s.reg d ∧
      (t.flags.of = true ↔
        (s.reg d).toInt + (s.reg r).toInt < -32768 ∨ 32767 < (s.reg d).toInt + (s.reg r).toInt) ∧
      (t.flags.cf = true ↔ 0x10000 ≤ (s.reg d).toNat + (s.reg r).toNat) ∧
      (u.flags.of = true ↔
        (t.reg d).toInt - (s.reg r).toInt < -32768 ∨ 32767 < (t.reg d).toInt - (s.reg r).toInt) ∧
      (u.flags.cf = true ↔ (t.reg d).toNat < (s.reg r).toNat)

/-! ### The ALU instructions (42_alu.md section 2) -/

/-- R186, R187: ADD_REG and ADD_IMM put AddOp's result in the destination and its four flags in the flags; no other register
but PC and nothing outside changes; their encodings and their decode faults. -/
def Obligations.AddInstructions : Prop :=
  (∀ (d r : Reg) (s : State), ∃ t, exec (.addReg d r) s = .next t ∧
    AluResult s t 3 d (addOp (s.src 3 d) (s.src 3 r))) ∧
  (∀ (d : Reg) (imm : Word) (s : State), ∃ t, exec (.addImm d imm) s = .next t ∧
    AluResult s t 4 d (addOp (s.src 4 d) imm)) ∧
  (∀ d r, EncodesAs (.addReg d r) 0x06 [byteOfReg d, byteOfReg r]) ∧ RejectsBadRegister .addReg [1, 2] ∧
  (∀ d imm, EncodesAs (.addImm d imm) 0x07 [byteOfReg d, lowByte imm, highByte imm]) ∧ RejectsBadRegister .addImm [1]

/-- R188, R189: SUB_REG and SUB_IMM put SubOp's result in the destination and its four flags in the flags; no other register
but PC and nothing outside changes; their encodings and their decode faults. -/
def Obligations.SubInstructions : Prop :=
  (∀ (d r : Reg) (s : State), ∃ t, exec (.subReg d r) s = .next t ∧
    AluResult s t 3 d (subOp (s.src 3 d) (s.src 3 r))) ∧
  (∀ (d : Reg) (imm : Word) (s : State), ∃ t, exec (.subImm d imm) s = .next t ∧
    AluResult s t 4 d (subOp (s.src 4 d) imm)) ∧
  (∀ d r, EncodesAs (.subReg d r) 0x08 [byteOfReg d, byteOfReg r]) ∧ RejectsBadRegister .subReg [1, 2] ∧
  (∀ d imm, EncodesAs (.subImm d imm) 0x09 [byteOfReg d, lowByte imm, highByte imm]) ∧ RejectsBadRegister .subImm [1]

/-- R190, R191: MUL_REG and MUL_IMM put MulOp's result, under the value MUL_SIGNED has, in the destination and its four flags
in the flags; no other register but PC and nothing outside changes; their encodings and their decode faults. -/
def Obligations.MulInstructions : Prop :=
  (∀ (d r : Reg) (s : State), ∃ t, exec (.mulReg d r) s = .next t ∧
    AluResult s t 3 d (mulOp s.cfg.mulSigned (s.src 3 d) (s.src 3 r))) ∧
  (∀ (d : Reg) (imm : Word) (s : State), ∃ t, exec (.mulImm d imm) s = .next t ∧
    AluResult s t 4 d (mulOp s.cfg.mulSigned (s.src 4 d) imm)) ∧
  (∀ d r, EncodesAs (.mulReg d r) 0x0A [byteOfReg d, byteOfReg r]) ∧ RejectsBadRegister .mulReg [1, 2] ∧
  (∀ d imm, EncodesAs (.mulImm d imm) 0x0B [byteOfReg d, lowByte imm, highByte imm]) ∧ RejectsBadRegister .mulImm [1]

/-- R192, R193, R283: DIV_REG and DIV_IMM, under both values of DIV_SIGNED. A divisor that is not zero gives the quotient
and its flags; a zero divisor is the fatal fault DivisionByZero, with the dividend as its info and nothing written. -/
def Obligations.DivInstructions : Prop :=
  (∀ (d r : Reg) (s : State), ∃ t, exec (.divReg d r) s = .next t ∧
    if s.src 3 r = 0x0000 then Faults s t true .divisionByZero 3 ((s.src 3 d).setWidth 17)
    else ∃ q, divOp s.cfg.divSigned (s.src 3 d) (s.src 3 r) = some q ∧ AluResult s t 3 d q) ∧
  (∀ (d : Reg) (imm : Word) (s : State), ∃ t, exec (.divImm d imm) s = .next t ∧
    if imm = 0x0000 then Faults s t true .divisionByZero 4 ((s.src 4 d).setWidth 17)
    else ∃ q, divOp s.cfg.divSigned (s.src 4 d) imm = some q ∧ AluResult s t 4 d q) ∧
  (∀ d r, EncodesAs (.divReg d r) 0x0C [byteOfReg d, byteOfReg r]) ∧ RejectsBadRegister .divReg [1, 2] ∧
  (∀ d imm, EncodesAs (.divImm d imm) 0x0D [byteOfReg d, lowByte imm, highByte imm]) ∧ RejectsBadRegister .divImm [1]

/-- R185, R194 to R197: AND and OR in both forms: the bitwise result, CF = OF = 0, ZF and SF from the result. -/
def Obligations.LogicInstructions : Prop :=
  (∀ (d r : Reg) (s : State),
    (∃ t, exec (.andReg d r) s = .next t ∧ AluResult s t 3 d
      (s.src 3 d &&& s.src 3 r, ⟨false, (s.src 3 d &&& s.src 3 r) == 0, (s.src 3 d &&& s.src 3 r).getLsbD 15, false⟩)) ∧
    (∃ t, exec (.orReg d r) s = .next t ∧ AluResult s t 3 d
      (s.src 3 d ||| s.src 3 r, ⟨false, (s.src 3 d ||| s.src 3 r) == 0, (s.src 3 d ||| s.src 3 r).getLsbD 15, false⟩))) ∧
  (∀ (d : Reg) (imm : Word) (s : State),
    (∃ t, exec (.andImm d imm) s = .next t ∧ AluResult s t 4 d
      (s.src 4 d &&& imm, ⟨false, (s.src 4 d &&& imm) == 0, (s.src 4 d &&& imm).getLsbD 15, false⟩)) ∧
    (∃ t, exec (.orImm d imm) s = .next t ∧ AluResult s t 4 d
      (s.src 4 d ||| imm, ⟨false, (s.src 4 d ||| imm) == 0, (s.src 4 d ||| imm).getLsbD 15, false⟩))) ∧
  (∀ d r, EncodesAs (.andReg d r) 0x0E [byteOfReg d, byteOfReg r] ∧
    EncodesAs (.orReg d r) 0x10 [byteOfReg d, byteOfReg r]) ∧
  (∀ d imm, EncodesAs (.andImm d imm) 0x0F [byteOfReg d, lowByte imm, highByte imm] ∧
    EncodesAs (.orImm d imm) 0x11 [byteOfReg d, lowByte imm, highByte imm]) ∧
  RejectsBadRegister .andReg [1, 2] ∧ RejectsBadRegister .orReg [1, 2] ∧
  RejectsBadRegister .andImm [1] ∧ RejectsBadRegister .orImm [1]

/-- R198, R199: CMP_REG and CMP_IMM write the four flags of the difference and no register but PC. -/
def Obligations.CmpInstructions : Prop :=
  (∀ (d r : Reg) (s : State), ∃ t, exec (.cmpReg d r) s = .next t ∧
    WritesNoReg s t 3 ∧ t.flags = (subOp (s.src 3 d) (s.src 3 r)).2 ∧ SameOutside s t) ∧
  (∀ (d : Reg) (imm : Word) (s : State), ∃ t, exec (.cmpImm d imm) s = .next t ∧
    WritesNoReg s t 4 ∧ t.flags = (subOp (s.src 4 d) imm).2 ∧ SameOutside s t) ∧
  (∀ d r, EncodesAs (.cmpReg d r) 0x12 [byteOfReg d, byteOfReg r]) ∧ RejectsBadRegister .cmpReg [1, 2] ∧
  (∀ d imm, EncodesAs (.cmpImm d imm) 0x13 [byteOfReg d, lowByte imm, highByte imm]) ∧ RejectsBadRegister .cmpImm [1]

/-- R200: INC adds 1 modulo 2^16; ZF and SF from the result, OF from the value before, CF unchanged. -/
def Obligations.IncAddsOne : Prop :=
  (∀ (r : Reg) (s : State), ∃ t, exec (.inc r) s = .next t ∧
    WritesReg s t 2 r (s.src 2 r + 1) ∧ SameOutside s t ∧
    t.flags.cf = s.flags.cf ∧ (t.flags.zf = true ↔ s.src 2 r = 0xFFFF) ∧
    t.flags.sf = (s.src 2 r + 1).getLsbD 15 ∧ (t.flags.of = true ↔ s.src 2 r = 0x7FFF)) ∧
  (∀ r, EncodesAs (.inc r) 0x14 [byteOfReg r]) ∧ RejectsBadRegister .inc [1]

/-- R201: DEC subtracts 1 modulo 2^16; ZF and SF from the result, OF from the value before, CF unchanged. -/
def Obligations.DecSubtractsOne : Prop :=
  (∀ (r : Reg) (s : State), ∃ t, exec (.dec r) s = .next t ∧
    WritesReg s t 2 r (s.src 2 r - 1) ∧ SameOutside s t ∧
    t.flags.cf = s.flags.cf ∧ (t.flags.zf = true ↔ s.src 2 r = 0x0001) ∧
    t.flags.sf = (s.src 2 r - 1).getLsbD 15 ∧ (t.flags.of = true ↔ s.src 2 r = 0x8000)) ∧
  (∀ r, EncodesAs (.dec r) 0x15 [byteOfReg r]) ∧ RejectsBadRegister .dec [1]

/-! ### Stack (43_stack.md) -/

/-- R230, R234: PUSH_REG, at every stack pointer and for every source, SP and PC included: the word goes to SP - 2, and SP
moves only if it could be written or emitted. -/
def Obligations.PushRegPushesARegister : Prop :=
  (∀ (r : Reg) (s : State), ∃ t, exec (.pushReg r) s = .next t ∧
    DataWrite s t 2 ((s.sp - 2).setWidth 17) (s.src 2 r) (PushedRegs s t (s.nextPc 2))) ∧
  (∀ r, EncodesAs (.pushReg r) 0x16 [byteOfReg r]) ∧ RejectsBadRegister .pushReg [1]

/-- R230, R235: PUSH_IMM, at every stack pointer. -/
def Obligations.PushImmPushesAWord : Prop :=
  (∀ (imm : Word) (s : State), ∃ t, exec (.pushImm imm) s = .next t ∧
    DataWrite s t 3 ((s.sp - 2).setWidth 17) imm (PushedRegs s t (s.nextPc 3))) ∧
  (∀ imm, EncodesAs (.pushImm imm) 0x17 [lowByte imm, highByte imm])

/-- POP (R231, R236), at every stack pointer and for every destination: SP goes up by 2 and then the destination takes the
word, so `pop SP` leaves the popped word in SP and `pop PC` jumps to it. The wait of a port read takes the model's form
(log 5). -/
def Obligations.PopPopsIntoARegister : Prop :=
  (∀ (d : Reg) (s : State), ∃ t, exec (.pop d) s = .next t ∧
    DataRead s t 2 (s.sp.setWidth 17) fun v =>
      t.reg d = v ∧ (d ≠ .sp → t.sp = s.sp + 2) ∧ (d ≠ .pc → t.pc = s.nextPc 2) ∧ SameRegs [d, .sp, .pc] s t) ∧
  (∀ d, EncodesAs (.pop d) 0x18 [byteOfReg d]) ∧ RejectsBadRegister .pop [1]

/-- R236: a push followed at once by a pop restores the pushed value and SP, wherever the push lands in the array. -/
def Obligations.PushThenPopRestores : Prop :=
  ∀ (r d : Reg) (s : State), d ≠ .sp → (s.sp - 2).toNat ≤ 0xFFFE → ¬ s.PortAccess ((s.sp - 2).setWidth 17) →
    ∃ t u, exec (.pushReg r) s = .next t ∧ exec (.pop d) t = .next u ∧ u.reg d = s.src 2 r ∧ u.sp = s.sp

/-! ### Control flow (44_control.md) -/

/-- R250, R252 to R257: JMP always jumps, and each conditional jump exactly on its condition on the flags; every other
register, the flags and everything outside stay. -/
def Obligations.JumpsFollowTheirConditions : Prop :=
  ∀ (target : Word) (s : State),
    (∃ t, exec (.jmp target) s = .next t ∧
      t.pc = target ∧ SameRegs [.pc] s t ∧ t.flags = s.flags ∧ SameOutside s t) ∧
    (∃ t, exec (.je target) s = .next t ∧
      (t.pc = if s.flags.zf = true then target else s.nextPc 3) ∧
      SameRegs [.pc] s t ∧ t.flags = s.flags ∧ SameOutside s t) ∧
    (∃ t, exec (.jg target) s = .next t ∧
      (t.pc = if s.flags.zf = false ∧ s.flags.sf = s.flags.of then target else s.nextPc 3) ∧
      SameRegs [.pc] s t ∧ t.flags = s.flags ∧ SameOutside s t) ∧
    (∃ t, exec (.jge target) s = .next t ∧
      (t.pc = if s.flags.sf = s.flags.of then target else s.nextPc 3) ∧
      SameRegs [.pc] s t ∧ t.flags = s.flags ∧ SameOutside s t) ∧
    (∃ t, exec (.ja target) s = .next t ∧
      (t.pc = if s.flags.cf = false ∧ s.flags.zf = false then target else s.nextPc 3) ∧
      SameRegs [.pc] s t ∧ t.flags = s.flags ∧ SameOutside s t) ∧
    (∃ t, exec (.jae target) s = .next t ∧
      (t.pc = if s.flags.cf = false then target else s.nextPc 3) ∧
      SameRegs [.pc] s t ∧ t.flags = s.flags ∧ SameOutside s t) ∧
    EncodesAs (.jmp target) 0x19 [lowByte target, highByte target] ∧
    EncodesAs (.je target) 0x1A [lowByte target, highByte target] ∧
    EncodesAs (.jg target) 0x1B [lowByte target, highByte target] ∧
    EncodesAs (.jge target) 0x1C [lowByte target, highByte target] ∧
    EncodesAs (.ja target) 0x1D [lowByte target, highByte target] ∧
    EncodesAs (.jae target) 0x1E [lowByte target, highByte target]

/-- R250, the meaning column (the spec's own inference; two's complement is log 13): after CMP_REG and after CMP_IMM each
conditional jump is taken exactly on the comparison it is named for, signed for JG and JGE, unsigned for JA and JAE. -/
def Obligations.JumpsAfterCompareMeanTheComparison : Prop :=
  (∀ (d r : Reg) (target : Word) (s : State), ∃ t, exec (.cmpReg d r) s = .next t ∧
    JumpsCompare t target (s.src 3 d) (s.src 3 r)) ∧
  ∀ (d : Reg) (imm target : Word) (s : State), ∃ t, exec (.cmpImm d imm) s = .next t ∧
    JumpsCompare t target (s.src 4 d) imm

/-- R230, R258: CALL pushes the address of the next instruction and jumps; a push out of range does neither. -/
def Obligations.CallPushesTheReturnAddress : Prop :=
  (∀ (target : Word) (s : State), ∃ t, exec (.call target) s = .next t ∧
    DataWrite s t 3 ((s.sp - 2).setWidth 17) (s.nextPc 3) (PushedRegs s t target)) ∧
  (∀ target, EncodesAs (.call target) 0x1F [lowByte target, highByte target])

/-- RET (R231, R259) pops a word into PC. The wait of a port read takes the model's form (log 5). -/
def Obligations.RetPopsIntoThePc : Prop :=
  (∀ s : State, ∃ t, exec .ret s = .next t ∧
    DataRead s t 1 (s.sp.setWidth 17) fun v => t.pc = v ∧ t.sp = s.sp + 2 ∧ SameRegs [.sp, .pc] s t) ∧
  EncodesAs .ret 0x20 []

/-- R258, R259: a RET that finds SP where CALL left it, and the array as CALL left it, resumes at the instruction after the
call's operand, with SP as before the call. -/
def Obligations.CallThenRetResumes : Prop :=
  ∀ (target : Word) (s : State), (s.sp - 2).toNat ≤ 0xFFFE → ¬ s.PortAccess ((s.sp - 2).setWidth 17) →
    ∃ t, exec (.call target) s = .next t ∧
      ∀ t' : State, t'.sp = t.sp → t'.mem = t.mem → t'.cfg = t.cfg →
        ∃ u, exec .ret t' = .next u ∧ u.pc = s.nextPc 3 ∧ u.sp = s.sp

/-- R260: HLT sets the halted flag and enters Halted; PC is past its one byte; nothing else changes; and no later step
happens. -/
def Obligations.HltHalts : Prop :=
  (∀ s : State, ∃ t, exec .hlt s = .next t ∧ t.halted = true ∧ t.engine = .halted ∧
    WritesNoReg s t 1 ∧ t.flags = s.flags ∧ SameMemory s t ∧ SameInput s t ∧ t.history = s.history ∧ t.cfg = s.cfg ∧
    step t = .next t) ∧
  EncodesAs .hlt 0x21 []

/-- R261: an instruction whose destination is PC is a jump to the value it writes, and all of R261's list is here: MOV, LOAD,
POP, the two-operand ALU instructions in both forms, INC and DEC. PC as an operand is the next instruction's address. One
that faults (a zero divisor, a data address above 0xFFFE) leaves PC at `a0 + length`; a port read with no answer waits, in
the form of log 5. -/
def Obligations.WritesToPcJump : Prop :=
  (∀ (r : Reg) (s : State),
    (∃ t, exec (.movReg .pc r) s = .next t ∧ t.pc = s.src 3 r) ∧
    (∃ t, exec (.addReg .pc r) s = .next t ∧ t.pc = s.nextPc 3 + s.src 3 r) ∧
    (∃ t, exec (.subReg .pc r) s = .next t ∧ t.pc = s.nextPc 3 - s.src 3 r) ∧
    (∃ t, exec (.mulReg .pc r) s = .next t ∧ t.pc = s.nextPc 3 * s.src 3 r) ∧
    (∃ t, exec (.divReg .pc r) s = .next t ∧ DividesPc s t 3 (s.src 3 r)) ∧
    (∃ t, exec (.andReg .pc r) s = .next t ∧ t.pc = s.nextPc 3 &&& s.src 3 r) ∧
    (∃ t, exec (.orReg .pc r) s = .next t ∧ t.pc = s.nextPc 3 ||| s.src 3 r)) ∧
  (∀ (imm : Word) (s : State),
    (∃ t, exec (.movImm .pc imm) s = .next t ∧ t.pc = imm) ∧
    (∃ t, exec (.addImm .pc imm) s = .next t ∧ t.pc = s.nextPc 4 + imm) ∧
    (∃ t, exec (.subImm .pc imm) s = .next t ∧ t.pc = s.nextPc 4 - imm) ∧
    (∃ t, exec (.mulImm .pc imm) s = .next t ∧ t.pc = s.nextPc 4 * imm) ∧
    (∃ t, exec (.divImm .pc imm) s = .next t ∧ DividesPc s t 4 imm) ∧
    (∃ t, exec (.andImm .pc imm) s = .next t ∧ t.pc = s.nextPc 4 &&& imm) ∧
    (∃ t, exec (.orImm .pc imm) s = .next t ∧ t.pc = s.nextPc 4 ||| imm)) ∧
  ∀ (b : Reg) (off : Word) (s : State),
    (∃ t, exec (.inc .pc) s = .next t ∧ t.pc = s.nextPc 2 + 1) ∧
    (∃ t, exec (.dec .pc) s = .next t ∧ t.pc = s.nextPc 2 - 1) ∧
    (∃ t, exec (.load .pc b off) s = .next t ∧
      DataRead s t 5 (effAddr (s.src 5 b) off) fun v => t.pc = v) ∧
    (∃ t, exec (.pop .pc) s = .next t ∧ DataRead s t 2 (s.sp.setWidth 17) fun v => t.pc = v)

/-! ### Memory and boot -/

/-- R96: a store in the array is seen by the next fetch: after STORE_IMM of a word that lands on the next instruction's
address, the next step decodes the stored bytes. -/
def Obligations.StoredBytesAreFetched : Prop :=
  ∀ (b : Reg) (off imm : Word) (s : State), (effAddr (s.src 6 b) off).toNat = (s.nextPc 6).toNat →
    (effAddr (s.src 6 b) off).toNat ≤ 0xFFFE → ¬ s.PortAccess (effAddr (s.src 6 b) off) →
    ∃ t, exec (.storeImm b off imm) s = .next t ∧ t.window.b0 = lowByte imm ∧ t.window.b1 = highByte imm

/-- R313: after reset, a non-empty image lies in the array from address 0 up, cut to 65536 bytes, port range included, and
every byte beyond it is 0x00; nothing but memory is touched. An empty image is a failure and touches nothing. -/
def Obligations.LoaderPlacesTheImage : Prop :=
  ∀ (s : State) (image : List Byte),
    (image = [] → s.applyReset.load image = (s.applyReset, .failed)) ∧
    (image ≠ [] → ∃ t : State, s.applyReset.load image = (t, .loaded) ∧
      (∀ a, t.mem.read a = if a < 0x10000 then image.getD a 0x00 else 0x00) ∧
      t = { s.applyReset with mem := t.mem })

/-- The entry point (R312): the first instruction is at 0x0000, or, with ENTRY_HEADER, at the little-endian word the image
begins with. That the header is also read after a failed load, where it is 0x0000, is the model's choice (log 15). -/
def Obligations.EntryPoint : Prop :=
  ∀ (s : State) (image : List Byte),
    (s.cfg.entryHeader = false → (s.boot image).pc = 0x0000) ∧
    (s.cfg.entryHeader = true →
      (s.boot image).pc.toNat = (image.getD 0 0x00).toNat + 256 * (image.getD 1 0x00).toNat)

/-- The inspector's view (R48): the packing of the flags, the halted flag and the engine state. -/
def Obligations.InspectorPacksTheFlags : Prop :=
  ∀ s : State, s.inspect.flags.getLsbD 0 = s.flags.cf ∧ s.inspect.flags.getLsbD 1 = s.flags.zf ∧
    s.inspect.flags.getLsbD 2 = s.flags.sf ∧ s.inspect.flags.getLsbD 3 = s.flags.of ∧
    s.inspect.halted = s.halted ∧ s.inspect.engine = s.engine

/-- R290, R45, over the model's one history (log 6): the report of a step is the fault it added to the history, and none
when it added none; the input consumed and the output emitted grow by exactly the byte the step took or emitted. -/
def Obligations.StepReportIsTheAddedFault : Prop :=
  ∀ s t : State, step s = .next t →
    (∀ r, stepReport s t = some r ↔ t.history = s.history ++ [.reported r]) ∧
    (∀ b, t.consumed = s.consumed ++ [b] ↔ t.history = s.history ++ [.consumed b]) ∧
    (∀ b, t.output = s.output ++ [b] ↔ t.history = s.history ++ [.emitted b])
end

