-- ==== Sys2Proof/Laws/Encoding.lean ====
section
/-! SUPPORT. The small lemmas of the decoder and the encoder: register bytes and the opcode map. -/

namespace Sys2Proof

/-- Register bytes and registers: the byte that names a register decodes to it (R113, R122). -/
@[simp] theorem regOfByte_byteOfReg (r : Reg) : regOfByte (byteOfReg r) = some r := by
  cases r <;> rfl

/-- Register bytes are decided by the register they name. -/
theorem byteOfReg_of_regOfByte {b : Byte} {r : Reg} (h : regOfByte b = some r) : byteOfReg r = b := by
  revert b r; decide

/-- A register byte names no register exactly when it is above 10 (R113). -/
theorem regOfByte_eq_none_iff (b : Byte) : regOfByte b = none ↔ 10 < b.toNat := by
  revert b; decide

/-- A decoded register byte: the register it names, or the rejection. -/
theorem decodeReg_cases (n : Nat) (b : Byte) (k : Reg → Decoded) :
    (10 < b.toNat ∧ decodeReg n b k = .invalidRegister b n) ∨
    (¬ 10 < b.toNat ∧ ∃ r, regOfByte b = some r ∧ byteOfReg r = b ∧ decodeReg n b k = k r) := by
  unfold decodeReg
  cases h : regOfByte b with
  | none => exact .inl ⟨(regOfByte_eq_none_iff b).1 h, rfl⟩
  | some r =>
    refine .inr ⟨fun hb => ?_, r, rfl, byteOfReg_of_regOfByte h, rfl⟩
    rw [(regOfByte_eq_none_iff b).2 hb] at h
    cases h

@[simp] theorem decodeReg_byteOfReg (n : Nat) (r : Reg) (k : Reg → Decoded) : decodeReg n (byteOfReg r) k = k r := by
  simp [decodeReg]

theorem Mnemonic.mem_all (k : Mnemonic) : k ∈ Mnemonic.all := by
  cases k <;> decide

/-- A known opcode byte is its mnemonic's. -/
theorem opcodeByte_of_mnemonicOfByte {m : OpcodeMap} {op : Byte} {k : Mnemonic} (h : mnemonicOfByte m op = some k) :
    opcodeByte m k = op := by
  simpa using List.find?_some h

/-- An opcode byte is unknown exactly when no mnemonic has it (R123). -/
theorem mnemonicOfByte_eq_none_iff (m : OpcodeMap) (op : Byte) :
    mnemonicOfByte m op = none ↔ ∀ k, opcodeByte m k ≠ op := by
  simp [mnemonicOfByte, Mnemonic.mem_all]

/-- Where no other mnemonic shares its opcode byte, a mnemonic is what its byte decodes to. -/
theorem mnemonicOfByte_opcodeByte {m : OpcodeMap} {k : Mnemonic} (h : ∀ k', opcodeByte m k' = opcodeByte m k → k' = k) :
    mnemonicOfByte m (opcodeByte m k) = some k := by
  cases hm : mnemonicOfByte m (opcodeByte m k) with
  | none => exact absurd rfl ((mnemonicOfByte_eq_none_iff _ _).1 hm k)
  | some k' => rw [h k' (opcodeByte_of_mnemonicOfByte hm)]

theorem Format.length_bounds (f : Format) : 1 ≤ f.length ∧ f.length ≤ 6 := by
  cases f <;> decide

theorem Mnemonic.index_injective {k k' : Mnemonic} (h : k.index = k'.index) : k = k' := by
  revert h; cases k <;> cases k' <;> decide

end Sys2Proof
end

