-- ==== Sys2Proof/Laws/Memory.lean ====
section
/-! SUPPORT. The laws of the memory operations: a read after a write, the canonical form, and the bytes of a word. -/

namespace Sys2Proof.Machine

@[simp] theorem Memory.read_nil (a : Nat) : Memory.read [] a = 0 := rfl

theorem Memory.read_cons (k : Nat) (v : Byte) (m : Memory) (a : Nat) :
    Memory.read ((k, v) :: m) a = if k = a then v else Memory.read m a := rfl

/-- A memory that lists no cell at `a` reads 0x00 there. -/
theorem Memory.read_of_not_listed {m : Memory} {a : Nat} (h : ∀ c ∈ m, c.1 ≠ a) : Memory.read m a = 0 := by
  induction m with
  | nil => rfl
  | cons c m ih =>
    rw [Memory.read_cons, if_neg (h c (by simp)), ih fun d hd => h d (by simp [hd])]

theorem Memory.read_filter (m : Memory) (a c : Nat) :
    Memory.read (m.filter fun x => x.1 != a) c = if c = a then 0 else Memory.read m c := by
  induction m with
  | nil => simp
  | cons x m ih =>
    obtain ⟨k, v⟩ := x
    by_cases hk : k = a
    · subst hk
      rw [List.filter_cons_of_neg (by simp), ih, Memory.read_cons]
      split <;> simp_all [eq_comm]
    · rw [List.filter_cons_of_pos (by simpa using hk), Memory.read_cons, ih, Memory.read_cons]
      split <;> simp_all

theorem Memory.read_insert (m : Memory) (a : Nat) (b : Byte) (c : Nat) (h : ∀ x ∈ m, x.1 ≠ a) :
    Memory.read (Memory.insert a b m) c = if c = a then b else Memory.read m c := by
  induction m with
  | nil => simp [Memory.insert, Memory.read_cons, eq_comm]
  | cons x m ih =>
    obtain ⟨k, v⟩ := x
    have hk : k ≠ a := h (k, v) (by simp)
    rw [Memory.insert]
    split
    · simp only [Memory.read_cons, eq_comm]
    · rw [Memory.read_cons, ih fun y hy => h y (by simp [hy]), Memory.read_cons]
      split <;> simp_all

/-- A read after a write, in every memory: the byte written at its address, the old byte elsewhere. -/
@[simp] theorem Memory.read_write (m : Memory) (a : Nat) (b : Byte) (c : Nat) :
    Memory.read (m.write a b) c = if c = a then b else Memory.read m c := by
  unfold Memory.write
  split
  · rw [Memory.read_filter]; simp_all
  · rw [Memory.read_insert _ _ _ _ (by simp), Memory.read_filter]
    split <;> rfl

/-! ### The canonical form -/

theorem Memory.wf_nil : Memory.wf [] := by simp [Memory.wf]

theorem Memory.mem_insert {m : Memory} {a : Nat} {b : Byte} {c : Host.Cell} :
    c ∈ Memory.insert a b m ↔ c = (a, b) ∨ c ∈ m := by
  induction m with
  | nil => simp [Memory.insert]
  | cons x m ih =>
    obtain ⟨k, v⟩ := x
    rw [Memory.insert]
    split <;> simp [ih]; tauto

theorem Memory.pairwise_insert {m : Memory} {a : Nat} {b : Byte} (hm : m.Pairwise fun c d => c.1 < d.1)
    (ha : ∀ c ∈ m, c.1 ≠ a) : (Memory.insert a b m).Pairwise fun c d => c.1 < d.1 := by
  induction m with
  | nil => simp [Memory.insert]
  | cons x m ih =>
    obtain ⟨k, v⟩ := x
    rw [List.pairwise_cons] at hm
    have hk : k ≠ a := ha (k, v) (by simp)
    rw [Memory.insert]
    split
    next hlt =>
      refine List.pairwise_cons.2 ⟨fun c hc => ?_, List.pairwise_cons.2 hm⟩
      rcases List.mem_cons.1 hc with rfl | hc
      · exact hlt
      · exact lt_trans hlt (hm.1 c hc)
    next hlt =>
      refine List.pairwise_cons.2 ⟨fun c hc => ?_, ih hm.2 fun c hc => ha c (by simp [hc])⟩
      rcases Memory.mem_insert.1 hc with rfl | hc
      · show k < a
        omega
      · exact hm.1 c hc

/-- A write inside the address space keeps the canonical form. -/
theorem Memory.wf_write {m : Memory} (hm : Memory.wf m) {a : Nat} (ha : a < 0x10000) (b : Byte) :
    Memory.wf (m.write a b) := by
  obtain ⟨hs, hc⟩ := hm
  have hs' := hs.filter fun c => c.1 != a
  unfold Memory.write
  split
  · exact ⟨hs', fun c h => hc c (List.mem_of_mem_filter h)⟩
  next hb =>
    refine ⟨Memory.pairwise_insert hs' (by simp), fun c h => ?_⟩
    rcases Memory.mem_insert.1 h with rfl | h
    · exact ⟨ha, hb⟩
    · exact hc c (List.mem_of_mem_filter h)

/-- Consecutive writes inside the address space keep the canonical form. -/
theorem Memory.wf_writeBytes {m : Memory} (hm : Memory.wf m) {a : Nat} {bs : List Byte}
    (ha : a + bs.length ≤ 0x10000) : Memory.wf (m.writeBytes a bs) := by
  induction bs generalizing m a with
  | nil => exact hm
  | cons b bs ih =>
    rw [List.length_cons] at ha
    exact ih (Memory.wf_write hm (by omega) b) (by omega)

/-- Consecutive writes, read back. -/
theorem Memory.read_writeBytes (m : Memory) (a : Nat) (bs : List Byte) (c : Nat) :
    Memory.read (m.writeBytes a bs) c = if a ≤ c ∧ c < a + bs.length then bs.getD (c - a) 0 else Memory.read m c := by
  induction bs generalizing m a with
  | nil => simp [Memory.writeBytes]
  | cons b bs ih =>
    rw [Memory.writeBytes, ih, Memory.read_write, List.length_cons]
    rcases lt_trichotomy c a with h | rfl | h
    · rw [if_neg (by omega), if_neg (by omega), if_neg (by omega)]
    · simp
    · by_cases h' : c < a + (bs.length + 1)
      · rw [if_pos (by omega), if_pos (by omega), show c - a = (c - (a + 1)) + 1 by omega, List.getD_cons_succ]
      · rw [if_neg (by omega), if_neg (by omega), if_neg (by omega)]

/-- Reset's memory is canonical. -/
theorem State.reset_mem_wf : Memory.wf State.reset.mem := Memory.wf_nil

/-- The loader keeps the canonical form (R313). -/
theorem State.load_mem_wf {s : State} (hs : Memory.wf s.mem) (image : List Byte) : Memory.wf (s.load image).1.mem := by
  unfold State.load
  split
  · exact hs
  · exact Memory.wf_writeBytes hs (by simp)

/-- Placing a window for the next fetch keeps the canonical form. -/
theorem State.placeWindow_mem_wf {s : State} (hs : Memory.wf s.mem) (w : Window) :
    Memory.wf (s.placeWindow w).mem := by
  have h (v : Word) : v.toNat < 0x10000 := v.isLt
  exact Memory.wf_write (Memory.wf_write (Memory.wf_write (Memory.wf_write (Memory.wf_write
    (Memory.wf_write hs (h _) _) (h _) _) (h _) _) (h _) _) (h _) _) (h _) _

/-! ### The bytes of a word (R72, R114) -/

@[simp] theorem wordOfBytes_toNat (lo hi : Byte) : (wordOfBytes lo hi).toNat = lo.toNat + 256 * hi.toNat := by
  rw [wordOfBytes, BitVec.toNat_append, ← Nat.shiftLeft_add_eq_or_of_lt lo.isLt, Nat.shiftLeft_eq]
  omega

@[simp] theorem lowByte_toNat (v : Word) : (lowByte v).toNat = v.toNat % 256 := by
  simp [lowByte]

@[simp] theorem highByte_toNat (v : Word) : (highByte v).toNat = v.toNat / 256 := by
  have := v.isLt
  simp [highByte, Nat.shiftRight_eq_div_pow]
  omega

/-- The low byte of a word, as the word's value says it. -/
theorem lowByte_eq_ofNat (v : Word) : lowByte v = BitVec.ofNat 8 (v.toNat % 256) := by
  apply BitVec.eq_of_toNat_eq
  simp

/-- A stack address keeps its value as an effective address. -/
theorem toNat_setWidth_17 (v : Word) : (v.setWidth 17 : EffAddr).toNat = v.toNat :=
  BitVec.toNat_setWidth_of_le (by omega)

/-- A word is its two bytes. -/
@[simp] theorem wordOfBytes_lowByte_highByte (v : Word) : wordOfBytes (lowByte v) (highByte v) = v := by
  apply BitVec.eq_of_toNat_eq
  simp; omega

@[simp] theorem lowByte_wordOfBytes (lo hi : Byte) : lowByte (wordOfBytes lo hi) = lo := by
  apply BitVec.eq_of_toNat_eq
  have := lo.isLt
  simp; omega

@[simp] theorem highByte_wordOfBytes (lo hi : Byte) : highByte (wordOfBytes lo hi) = hi := by
  apply BitVec.eq_of_toNat_eq
  have := lo.isLt
  simp; omega

end Sys2Proof.Machine
end

