-- ==== Sys2Proof/Laws/State.lean ====
section
/-! SUPPORT. One lemma per field per update of the state, so that no later proof unfolds a record update. -/

namespace Sys2Proof.Machine

variable (s : State)

/-! ### Named registers -/

theorem State.reg_pc : s.reg .pc = s.pc := rfl

theorem State.reg_sp : s.reg .sp = s.sp := rfl

theorem State.reg_fp : s.reg .fp = s.fp := rfl

/-- Any two states with the same eleven register fields have the same registers. -/
theorem State.reg_congr {s t : State} (h : s.r1 = t.r1 ∧ s.r2 = t.r2 ∧ s.r3 = t.r3 ∧ s.r4 = t.r4 ∧ s.r5 = t.r5 ∧ s.r6 = t.r6 ∧ s.r7 = t.r7 ∧ s.r8 = t.r8 ∧ s.pc = t.pc ∧ s.sp = t.sp ∧ s.fp = t.fp) (q : Reg) :
    s.reg q = t.reg q := by
  obtain ⟨hr1, hr2, hr3, hr4, hr5, hr6, hr7, hr8, hpc, hsp, hfp⟩ := h
  cases q <;> assumption

/-! ### `setReg` -/

@[simp] theorem State.setReg_flags (d : Reg) (v : Word) : (s.setReg d v).flags = s.flags := by
  cases d <;> rfl

@[simp] theorem State.setReg_halted (d : Reg) (v : Word) : (s.setReg d v).halted = s.halted := by
  cases d <;> rfl

@[simp] theorem State.setReg_engine (d : Reg) (v : Word) : (s.setReg d v).engine = s.engine := by
  cases d <;> rfl

@[simp] theorem State.setReg_mem (d : Reg) (v : Word) : (s.setReg d v).mem = s.mem := by
  cases d <;> rfl

@[simp] theorem State.setReg_input (d : Reg) (v : Word) : (s.setReg d v).input = s.input := by
  cases d <;> rfl

@[simp] theorem State.setReg_inputEnded (d : Reg) (v : Word) : (s.setReg d v).inputEnded = s.inputEnded := by
  cases d <;> rfl

@[simp] theorem State.setReg_inputWaiting (d : Reg) (v : Word) : (s.setReg d v).inputWaiting = s.inputWaiting := by
  cases d <;> rfl

@[simp] theorem State.setReg_history (d : Reg) (v : Word) : (s.setReg d v).history = s.history := by
  cases d <;> rfl

@[simp] theorem State.setReg_cfg (d : Reg) (v : Word) : (s.setReg d v).cfg = s.cfg := by
  cases d <;> rfl

/-- A register write and then a read (R34, R35). -/
@[simp] theorem State.setReg_reg (d q : Reg) (v : Word) : (s.setReg d v).reg q = if q = d then v else s.reg q := by
  cases d <;> cases q <;> rfl

@[simp] theorem State.setReg_pc (d : Reg) (v : Word) : (s.setReg d v).pc = if d = .pc then v else s.pc := by
  cases d <;> rfl

@[simp] theorem State.setReg_sp (d : Reg) (v : Word) : (s.setReg d v).sp = if d = .sp then v else s.sp := by
  cases d <;> rfl

/-! ### `setMem` -/

@[simp] theorem State.setMem_flags (m : Memory) : (s.setMem m).flags = s.flags := rfl

@[simp] theorem State.setMem_halted (m : Memory) : (s.setMem m).halted = s.halted := rfl

@[simp] theorem State.setMem_engine (m : Memory) : (s.setMem m).engine = s.engine := rfl

@[simp] theorem State.setMem_mem (m : Memory) : (s.setMem m).mem = m := rfl

@[simp] theorem State.setMem_input (m : Memory) : (s.setMem m).input = s.input := rfl

@[simp] theorem State.setMem_inputEnded (m : Memory) : (s.setMem m).inputEnded = s.inputEnded := rfl

@[simp] theorem State.setMem_inputWaiting (m : Memory) : (s.setMem m).inputWaiting = s.inputWaiting := rfl

@[simp] theorem State.setMem_history (m : Memory) : (s.setMem m).history = s.history := rfl

@[simp] theorem State.setMem_cfg (m : Memory) : (s.setMem m).cfg = s.cfg := rfl

@[simp] theorem State.setMem_reg (m : Memory) (q : Reg) : (s.setMem m).reg q = s.reg q := by
  cases q <;> rfl

@[simp] theorem State.setMem_pc (m : Memory) : (s.setMem m).pc = s.pc := rfl

@[simp] theorem State.setMem_sp (m : Memory) : (s.setMem m).sp = s.sp := rfl

/-! ### `advance` -/

@[simp] theorem State.advance_flags (n : Nat) : (s.advance n).flags = s.flags := rfl

@[simp] theorem State.advance_halted (n : Nat) : (s.advance n).halted = s.halted := rfl

@[simp] theorem State.advance_engine (n : Nat) : (s.advance n).engine = s.engine := rfl

@[simp] theorem State.advance_mem (n : Nat) : (s.advance n).mem = s.mem := rfl

@[simp] theorem State.advance_input (n : Nat) : (s.advance n).input = s.input := rfl

@[simp] theorem State.advance_inputEnded (n : Nat) : (s.advance n).inputEnded = s.inputEnded := rfl

@[simp] theorem State.advance_inputWaiting (n : Nat) : (s.advance n).inputWaiting = s.inputWaiting := rfl

@[simp] theorem State.advance_history (n : Nat) : (s.advance n).history = s.history := rfl

@[simp] theorem State.advance_cfg (n : Nat) : (s.advance n).cfg = s.cfg := rfl

@[simp] theorem State.advance_pc (n : Nat) : (s.advance n).pc = s.pc + BitVec.ofNat 16 n := rfl

@[simp] theorem State.advance_sp (n : Nat) : (s.advance n).sp = s.sp := rfl

theorem State.advance_reg (n : Nat) (q : Reg) :
    (s.advance n).reg q = if q = .pc then s.pc + BitVec.ofNat 16 n else s.reg q := by
  cases q <;> rfl

/-! ### `setFlags` -/

@[simp] theorem State.setFlags_flags (f : Flags) : (s.setFlags f).flags = f := rfl

@[simp] theorem State.setFlags_halted (f : Flags) : (s.setFlags f).halted = s.halted := rfl

@[simp] theorem State.setFlags_engine (f : Flags) : (s.setFlags f).engine = s.engine := rfl

@[simp] theorem State.setFlags_mem (f : Flags) : (s.setFlags f).mem = s.mem := rfl

@[simp] theorem State.setFlags_input (f : Flags) : (s.setFlags f).input = s.input := rfl

@[simp] theorem State.setFlags_inputEnded (f : Flags) : (s.setFlags f).inputEnded = s.inputEnded := rfl

@[simp] theorem State.setFlags_inputWaiting (f : Flags) : (s.setFlags f).inputWaiting = s.inputWaiting := rfl

@[simp] theorem State.setFlags_history (f : Flags) : (s.setFlags f).history = s.history := rfl

@[simp] theorem State.setFlags_cfg (f : Flags) : (s.setFlags f).cfg = s.cfg := rfl

@[simp] theorem State.setFlags_reg (f : Flags) (q : Reg) : (s.setFlags f).reg q = s.reg q := by
  cases q <;> rfl

@[simp] theorem State.setFlags_pc (f : Flags) : (s.setFlags f).pc = s.pc := rfl

/-! ### `record` -/

@[simp] theorem State.record_flags (e : Event) : (s.record e).flags = s.flags := rfl

@[simp] theorem State.record_halted (e : Event) : (s.record e).halted = s.halted := rfl

@[simp] theorem State.record_engine (e : Event) : (s.record e).engine = s.engine := rfl

@[simp] theorem State.record_mem (e : Event) : (s.record e).mem = s.mem := rfl

@[simp] theorem State.record_input (e : Event) : (s.record e).input = s.input := rfl

@[simp] theorem State.record_inputEnded (e : Event) : (s.record e).inputEnded = s.inputEnded := rfl

@[simp] theorem State.record_inputWaiting (e : Event) : (s.record e).inputWaiting = s.inputWaiting := rfl

@[simp] theorem State.record_history (e : Event) : (s.record e).history = s.history ++ [e] := rfl

@[simp] theorem State.record_cfg (e : Event) : (s.record e).cfg = s.cfg := rfl

@[simp] theorem State.record_reg (e : Event) (q : Reg) : (s.record e).reg q = s.reg q := by
  cases q <;> rfl

@[simp] theorem State.record_pc (e : Event) : (s.record e).pc = s.pc := rfl

/-! ### `raiseFatal` -/

@[simp] theorem State.raiseFatal_flags (k : FaultKind) (a : Word) (i : BitVec 17) :
    (s.raiseFatal k a i).flags = s.flags := rfl

@[simp] theorem State.raiseFatal_halted (k : FaultKind) (a : Word) (i : BitVec 17) :
    (s.raiseFatal k a i).halted = s.halted := rfl

@[simp] theorem State.raiseFatal_engine (k : FaultKind) (a : Word) (i : BitVec 17) :
    (s.raiseFatal k a i).engine = .faulted := rfl

@[simp] theorem State.raiseFatal_mem (k : FaultKind) (a : Word) (i : BitVec 17) :
    (s.raiseFatal k a i).mem = s.mem := rfl

@[simp] theorem State.raiseFatal_input (k : FaultKind) (a : Word) (i : BitVec 17) :
    (s.raiseFatal k a i).input = s.input := rfl

@[simp] theorem State.raiseFatal_inputEnded (k : FaultKind) (a : Word) (i : BitVec 17) :
    (s.raiseFatal k a i).inputEnded = s.inputEnded := rfl

@[simp] theorem State.raiseFatal_inputWaiting (k : FaultKind) (a : Word) (i : BitVec 17) :
    (s.raiseFatal k a i).inputWaiting = s.inputWaiting := rfl

@[simp] theorem State.raiseFatal_history (k : FaultKind) (a : Word) (i : BitVec 17) :
    (s.raiseFatal k a i).history = s.history ++ [.reported ⟨k, a, i, true⟩] := rfl

@[simp] theorem State.raiseFatal_cfg (k : FaultKind) (a : Word) (i : BitVec 17) :
    (s.raiseFatal k a i).cfg = s.cfg := rfl

@[simp] theorem State.raiseFatal_reg (k : FaultKind) (a : Word) (i : BitVec 17) (q : Reg) :
    (s.raiseFatal k a i).reg q = s.reg q := by
  cases q <;> rfl

@[simp] theorem State.raiseFatal_pc (k : FaultKind) (a : Word) (i : BitVec 17) : (s.raiseFatal k a i).pc = s.pc := rfl

/-! ### `raiseLocal` -/

@[simp] theorem State.raiseLocal_flags (k : FaultKind) (a : Word) (i : BitVec 17) :
    (s.raiseLocal k a i).flags = s.flags := by
  unfold State.raiseLocal; split <;> simp_all

@[simp] theorem State.raiseLocal_halted (k : FaultKind) (a : Word) (i : BitVec 17) :
    (s.raiseLocal k a i).halted = s.halted := by
  unfold State.raiseLocal; split <;> simp_all

@[simp] theorem State.raiseLocal_engine (k : FaultKind) (a : Word) (i : BitVec 17) :
    (s.raiseLocal k a i).engine = if s.cfg.strictLocalFaults then .faulted else s.engine := by
  unfold State.raiseLocal; split <;> simp_all

@[simp] theorem State.raiseLocal_mem (k : FaultKind) (a : Word) (i : BitVec 17) :
    (s.raiseLocal k a i).mem = s.mem := by
  unfold State.raiseLocal; split <;> simp_all

@[simp] theorem State.raiseLocal_input (k : FaultKind) (a : Word) (i : BitVec 17) :
    (s.raiseLocal k a i).input = s.input := by
  unfold State.raiseLocal; split <;> simp_all

@[simp] theorem State.raiseLocal_inputEnded (k : FaultKind) (a : Word) (i : BitVec 17) :
    (s.raiseLocal k a i).inputEnded = s.inputEnded := by
  unfold State.raiseLocal; split <;> simp_all

@[simp] theorem State.raiseLocal_inputWaiting (k : FaultKind) (a : Word) (i : BitVec 17) :
    (s.raiseLocal k a i).inputWaiting = s.inputWaiting := by
  unfold State.raiseLocal; split <;> simp_all

@[simp] theorem State.raiseLocal_history (k : FaultKind) (a : Word) (i : BitVec 17) :
    (s.raiseLocal k a i).history = s.history ++ [.reported ⟨k, a, i, s.cfg.strictLocalFaults⟩] := by
  unfold State.raiseLocal; split <;> simp_all

@[simp] theorem State.raiseLocal_cfg (k : FaultKind) (a : Word) (i : BitVec 17) :
    (s.raiseLocal k a i).cfg = s.cfg := by
  unfold State.raiseLocal; split <;> simp_all

@[simp] theorem State.raiseLocal_reg (k : FaultKind) (a : Word) (i : BitVec 17) (q : Reg) :
    (s.raiseLocal k a i).reg q = s.reg q := by
  unfold State.raiseLocal; split <;> simp

@[simp] theorem State.raiseLocal_pc (k : FaultKind) (a : Word) (i : BitVec 17) : (s.raiseLocal k a i).pc = s.pc := by
  unfold State.raiseLocal; split <;> simp

/-! ### `hold` -/

@[simp] theorem State.hold_flags : (s.hold).flags = s.flags := rfl

@[simp] theorem State.hold_halted : (s.hold).halted = s.halted := rfl

@[simp] theorem State.hold_engine : (s.hold).engine = s.engine := rfl

@[simp] theorem State.hold_mem : (s.hold).mem = s.mem := rfl

@[simp] theorem State.hold_input : (s.hold).input = s.input := rfl

@[simp] theorem State.hold_inputEnded : (s.hold).inputEnded = s.inputEnded := rfl

@[simp] theorem State.hold_inputWaiting : (s.hold).inputWaiting = true := rfl

@[simp] theorem State.hold_history : (s.hold).history = s.history := rfl

@[simp] theorem State.hold_cfg : (s.hold).cfg = s.cfg := rfl

@[simp] theorem State.hold_reg (q : Reg) : s.hold.reg q = s.reg q := by
  cases q <;> rfl

/-! ### `writeAlu` -/

@[simp] theorem State.writeAlu_pc (d : Reg) (r : Word × Flags) : (s.writeAlu d r).pc = if d = .pc then r.1 else s.pc := by
  cases d <;> rfl

@[simp] theorem State.writeAlu_sp (d : Reg) (r : Word × Flags) : (s.writeAlu d r).sp = if d = .sp then r.1 else s.sp := by
  cases d <;> rfl

@[simp] theorem State.writeAlu_flags (d : Reg) (r : Word × Flags) : (s.writeAlu d r).flags = r.2 := by
  simp [State.writeAlu]

@[simp] theorem State.writeAlu_halted (d : Reg) (r : Word × Flags) : (s.writeAlu d r).halted = s.halted := by
  simp [State.writeAlu]

@[simp] theorem State.writeAlu_engine (d : Reg) (r : Word × Flags) : (s.writeAlu d r).engine = s.engine := by
  simp [State.writeAlu]

@[simp] theorem State.writeAlu_mem (d : Reg) (r : Word × Flags) : (s.writeAlu d r).mem = s.mem := by
  simp [State.writeAlu]

@[simp] theorem State.writeAlu_input (d : Reg) (r : Word × Flags) : (s.writeAlu d r).input = s.input := by
  simp [State.writeAlu]

@[simp] theorem State.writeAlu_inputEnded (d : Reg) (r : Word × Flags) :
    (s.writeAlu d r).inputEnded = s.inputEnded := by
  simp [State.writeAlu]

@[simp] theorem State.writeAlu_inputWaiting (d : Reg) (r : Word × Flags) :
    (s.writeAlu d r).inputWaiting = s.inputWaiting := by
  simp [State.writeAlu]

@[simp] theorem State.writeAlu_history (d : Reg) (r : Word × Flags) : (s.writeAlu d r).history = s.history := by
  simp [State.writeAlu]

@[simp] theorem State.writeAlu_cfg (d : Reg) (r : Word × Flags) : (s.writeAlu d r).cfg = s.cfg := by
  simp [State.writeAlu]

@[simp] theorem State.writeAlu_reg (d q : Reg) (r : Word × Flags) :
    (s.writeAlu d r).reg q = if q = d then r.1 else s.reg q := by
  simp [State.writeAlu]

end Sys2Proof.Machine
end

