-- ==== Sys2Proof/Laws/Ops.lean ====
section
/-! SUPPORT. One lemma per shared operation that says everything it can do. -/

namespace Sys2Proof.Machine

theorem State.advance_reg_eq_src (s : State) (n : Nat) (q : Reg) : (s.advance n).reg q = s.src n q := by
  rw [State.advance_reg]; rfl

theorem State.inPorts_iff (s : State) (a : Nat) :
    s.inPorts a = true ↔ s.cfg.portBase.toNat ≤ a ∧ a ≤ 0xFFFF := by
  simp [State.inPorts]

theorem State.touchesPorts_iff (s : State) (ea : EffAddr) : s.touchesPorts ea = true ↔ s.PortAccess ea := by
  simp only [State.touchesPorts, Bool.or_eq_true, State.inPorts_iff, State.PortAccess]

/-- The port range goes to the top of memory, so a word access in bounds is a port access exactly when its second byte
is in or above PORT_BASE. -/
theorem State.portAccess_iff (s : State) {ea : EffAddr} (h : ea.toNat ≤ 0xFFFE) :
    s.PortAccess ea ↔ s.cfg.portBase.toNat ≤ ea.toNat + 1 := by
  unfold State.PortAccess; omega

theorem State.wordAt_eq (s : State) (a : Nat) : s.mem.loadWord a = s.wordAt a := by
  apply BitVec.eq_of_toNat_eq
  have h1 := (s.mem.read a).isLt
  have h2 := (s.mem.read (a + 1)).isLt
  rw [Memory.loadWord, wordOfBytes_toNat, State.wordAt, BitVec.toNat_ofNat, Nat.mod_eq_of_lt (by omega)]

/-- `PortIn()`: none exactly while the host has no answer; else a byte taken, or 0x00 at end of input. -/
theorem State.portIn_cases (s : State) :
    (s.portIn = none ∧ s.input = [] ∧ s.inputEnded = false) ∨
    (∃ b rest, s.input = b :: rest ∧
      s.portIn = some (b, { s.record (.consumed b) with input := rest, inputWaiting := false })) ∨
    (s.input = [] ∧ s.inputEnded = true ∧ s.portIn = some (0, { s with inputWaiting := false })) := by
  unfold State.portIn
  cases hi : s.input with
  | cons b rest => exact .inr (.inl ⟨b, rest, rfl, rfl⟩)
  | nil =>
    cases he : s.inputEnded with
    | true => exact .inr (.inr ⟨rfl, rfl, rfl⟩)
    | false => exact .inl ⟨rfl, rfl, rfl⟩

/-- What a completed word read can change: the input stream, the wait and the history, as the host's answer says. -/
structure ReadDone (s t : State) (ea : EffAddr) (v : Word) : Prop where
  inRange : ea.toNat ≤ 0xFFFE
  frame : t = { s with input := t.input, inputWaiting := t.inputWaiting, history := t.history }
  value : (s.PortAccess ea ∧ PortAnswer s t v) ∨ (¬ s.PortAccess ea ∧ v = s.wordAt ea.toNat ∧ t = s)

/-- `MemRead(ea, 2)`: out of range, waiting on the port, or done. -/
theorem State.memRead_cases (s : State) (ea : EffAddr) :
    (0xFFFE < ea.toNat ∧ s.memRead ea = .outOfRange ea) ∨
    (ea.toNat ≤ 0xFFFE ∧ s.PortAccess ea ∧ s.input = [] ∧ s.inputEnded = false ∧ s.memRead ea = .waits) ∨
    ∃ v t, s.memRead ea = .done v t ∧ ReadDone s t ea v := by
  unfold State.memRead
  by_cases hb : ea.toNat > 0xFFFE
  · exact .inl ⟨hb, if_pos hb⟩
  have hle : ea.toNat ≤ 0xFFFE := by omega
  rw [if_neg hb]
  by_cases hp : s.PortAccess ea
  · rw [if_pos ((s.touchesPorts_iff ea).2 hp)]
    rcases s.portIn_cases with ⟨h, hi, he⟩ | ⟨b, rest, hi, h⟩ | ⟨hi, he, h⟩ <;> rw [h]
    · exact .inr (.inl ⟨hle, hp, hi, he, rfl⟩)
    · refine .inr (.inr ⟨_, _, rfl, hle, rfl, .inl ⟨hp, rfl, rfl, .inl ⟨b, rest, hi, ?_, rfl, rfl⟩⟩⟩)
      simp; omega
    · exact .inr (.inr ⟨_, _, rfl, hle, rfl, .inl ⟨hp, rfl, rfl, .inr ⟨hi, he, rfl, hi, rfl⟩⟩⟩)
  · rw [if_neg (mt (s.touchesPorts_iff ea).1 hp), s.wordAt_eq]
    exact .inr (.inr ⟨_, _, rfl, hle, rfl, .inr ⟨hp, rfl, rfl⟩⟩)

theorem Memory.read_storeWord (m : Memory) (a : Nat) (v : Word) (c : Nat) :
    (m.storeWord a v).read c = if c = a + 1 then highByte v else if c = a then lowByte v else m.read c := by
  simp [Memory.storeWord]

theorem Memory.wf_storeWord {m : Memory} (hm : Memory.wf m) {a : Nat} (ha : a ≤ 0xFFFE) (v : Word) :
    Memory.wf (m.storeWord a v) :=
  Memory.wf_write (Memory.wf_write hm (by omega) _) (by omega) _

/-- What a completed word write changes: a byte emitted, or a word stored outside the port range. -/
structure WriteDone (s t : State) (ea : EffAddr) (v : Word) : Prop where
  inRange : ea.toNat ≤ 0xFFFE
  effect : (s.PortAccess ea ∧ t = s.record (.emitted (lowByte v))) ∨
    (¬ s.PortAccess ea ∧ t = s.setMem (s.mem.storeWord ea.toNat v))

/-- `MemWrite(ea, 2, v)`: out of range or done; a write never waits. -/
theorem State.memWrite_cases (s : State) (ea : EffAddr) (v : Word) :
    (0xFFFE < ea.toNat ∧ s.memWrite ea v = .outOfRange ea) ∨
    ∃ t, s.memWrite ea v = .done () t ∧ WriteDone s t ea v := by
  unfold State.memWrite
  by_cases hb : ea.toNat > 0xFFFE
  · exact .inl ⟨hb, if_pos hb⟩
  have hle : ea.toNat ≤ 0xFFFE := by omega
  rw [if_neg hb]
  by_cases hp : s.PortAccess ea
  · rw [if_pos ((s.touchesPorts_iff ea).2 hp)]
    exact .inr ⟨_, rfl, hle, .inl ⟨hp, rfl⟩⟩
  · rw [if_neg (mt (s.touchesPorts_iff ea).1 hp)]
    exact .inr ⟨_, rfl, hle, .inr ⟨hp, rfl⟩⟩

/-- `Push(v)`: out of range with nothing changed, or the word written at SP - 2 and SP there. -/
theorem State.push_cases (s : State) (v : Word) :
    (0xFFFE < (s.sp - 2).toNat ∧ s.push v = .outOfRange ((s.sp - 2).setWidth 17)) ∨
    ∃ t, s.push v = .done () (t.setReg .sp (s.sp - 2)) ∧ WriteDone s t ((s.sp - 2).setWidth 17) v := by
  rcases s.memWrite_cases ((s.sp - 2).setWidth 17) v with ⟨hb, h⟩ | ⟨t, h, hd⟩ <;>
    simp only [State.push, h]
  · refine .inl ⟨?_, trivial⟩
    rwa [BitVec.toNat_setWidth_of_le (by omega)] at hb
  · exact .inr ⟨t, rfl, hd⟩

/-- `Pop()`: out of range or waiting with nothing changed, or the word read at SP and SP two higher. -/
theorem State.pop_cases (s : State) :
    (0xFFFE < s.sp.toNat ∧ s.pop = .outOfRange (s.sp.setWidth 17)) ∨
    (s.sp.toNat ≤ 0xFFFE ∧ s.PortAccess (s.sp.setWidth 17) ∧ s.input = [] ∧ s.inputEnded = false ∧ s.pop = .waits) ∨
    ∃ v t, s.pop = .done v (t.setReg .sp (s.sp + 2)) ∧ ReadDone s t (s.sp.setWidth 17) v := by
  have hn : (s.sp.setWidth 17 : EffAddr).toNat = s.sp.toNat := BitVec.toNat_setWidth_of_le (by omega)
  rcases s.memRead_cases (s.sp.setWidth 17) with ⟨hb, h⟩ | ⟨hb, hp, hi, he, h⟩ | ⟨v, t, h, hd⟩ <;>
    simp only [State.pop, h]
  · exact .inl ⟨by omega, trivial⟩
  · exact .inr (.inl ⟨by omega, hp, hi, he, trivial⟩)
  · exact .inr (.inr ⟨v, t, rfl, hd⟩)

/-- A push into the array, outright. -/
theorem State.push_stores (s : State) (v : Word) (h : (s.sp - 2).toNat ≤ 0xFFFE)
    (hp : ¬ s.PortAccess ((s.sp - 2).setWidth 17)) :
    s.push v = .done () ((s.setMem (s.mem.storeWord (s.sp - 2).toNat v)).setReg .sp (s.sp - 2)) := by
  rcases s.push_cases v with ⟨hb, _⟩ | ⟨t, h', _, ⟨hp', _⟩ | ⟨_, rfl⟩⟩
  · omega
  · exact absurd hp' hp
  · rw [h', toNat_setWidth_17]

/-- A pop from the array, outright. -/
theorem State.pop_loads (s : State) (h : s.sp.toNat ≤ 0xFFFE) (hp : ¬ s.PortAccess (s.sp.setWidth 17)) :
    s.pop = .done (s.wordAt s.sp.toNat) (s.setReg .sp (s.sp + 2)) := by
  rcases s.pop_cases with ⟨hb, _⟩ | ⟨_, hp', _⟩ | ⟨v, t, h', _, _, ⟨hp', _⟩ | ⟨_, rfl, rfl⟩⟩
  · omega
  · exact absurd hp' hp
  · exact absurd hp' hp
  · rw [h', toNat_setWidth_17]

/-- The word just stored reads back. -/
theorem Memory.loadWord_storeWord (m : Memory) (a : Nat) (v : Word) :
    (m.storeWord a v).loadWord a = v := by
  simp [Memory.loadWord, Memory.read_storeWord]

/-- An instruction that made a data access always answers a next state. -/
theorem Access.finish_next {α : Type} (s decoded : State) (acc : Access α) (k : α → State → State) :
    ∃ t, acc.finish s decoded k = .next t := by
  cases acc <;> exact ⟨_, rfl⟩

/-- A division: the quotient and its flags for a divisor that is not zero, the fatal fault for zero. -/
theorem State.divide_cases (s decoded : State) (d : Reg) (b : Word) :
    (b = 0 ∧ s.divide decoded d b = decoded.raiseFatal .divisionByZero s.pc ((decoded.reg d).setWidth 17)) ∨
    (b ≠ 0 ∧ ∃ r, divOp decoded.cfg.divSigned (decoded.reg d) b = some r ∧ s.divide decoded d b = decoded.writeAlu d r) := by
  by_cases hb : b = 0
  · exact .inl ⟨hb, by simp [State.divide, divOp, hb]⟩
  · exact .inr ⟨hb, _, if_neg hb, by rw [State.divide, divOp, if_neg hb]⟩

/-- A jump: the registers but PC, and everything outside, stay. -/
theorem State.jumpIf_eq (s : State) (c : Bool) (target : Word) :
    s.jumpIf c target = s.setReg .pc (if c then target else s.nextPc 3) := by
  cases c <;> rfl

/-- A reported local fault, in the terms of the statements (R285). -/
theorem State.raiseLocal_faults (s : State) (k : FaultKind) (len : Nat) (info : BitVec 17) :
    Faults s ((s.advance len).raiseLocal k s.pc info) false k len info := by
  refine ⟨by simp, by cases h : s.cfg.strictLocalFaults <;> simp [h], ⟨by simp [State.nextPc], fun q hq => ?_⟩, by simp, fun a => by simp, ⟨by simp, by simp, by simp⟩,
    by simp, by simp⟩
  rw [State.raiseLocal_reg, State.advance_reg, if_neg (by simpa using hq)]

/-- A reported fatal fault, in the terms of the statements (R286). -/
theorem State.raiseFatal_faults (s : State) (k : FaultKind) (len : Nat) (info : BitVec 17) :
    Faults s ((s.advance len).raiseFatal k s.pc info) true k len info := by
  refine ⟨by simp, by simp, ⟨by simp [State.nextPc], fun q hq => ?_⟩, by simp, fun a => by simp, ⟨by simp, by simp, by simp⟩,
    by simp, by simp⟩
  rw [State.raiseFatal_reg, State.advance_reg, if_neg (by simpa using hq)]

/-- Everything one step request can do (R118). -/
theorem step_cases {s t : State} (h : step s = .next t) :
    (s.engine ≠ .running ∧ t = s) ∨
    (s.engine = .running ∧
      ((∃ i, s.fetchDecode = .instr i ∧ exec i s = .next t) ∨
        (∃ op, s.fetchDecode = .unknownOpcode op ∧ t = s.takeUnknownOpcode op) ∨
        (∃ v n, s.fetchDecode = .invalidRegister v n ∧ t = s.takeInvalidRegister v n))) := by
  unfold step at h
  cases he : s.engine <;> rw [he] at h
  · refine .inr ⟨rfl, ?_⟩
    cases hd : s.fetchDecode <;> rw [hd] at h
    · exact .inl ⟨_, rfl, h⟩
    · exact .inr (.inl ⟨_, rfl, (Host.Outcome.next.inj h).symm⟩)
    · exact .inr (.inr ⟨_, _, rfl, (Host.Outcome.next.inj h).symm⟩)
  · exact .inl ⟨nofun, (Host.Outcome.next.inj h).symm⟩
  · exact .inl ⟨nofun, (Host.Outcome.next.inj h).symm⟩

/-- What a data read leaves says less with less said of its registers. -/
theorem DataRead.imp {s t : State} {len : Nat} {ea : EffAddr} {p q : Word → Prop} (h : ∀ v, p v → q v)
    (d : DataRead s t len ea p) : DataRead s t len ea q := by
  unfold DataRead at d ⊢
  split <;> rename_i hb
  · rwa [if_pos hb] at d
  · rw [if_neg hb] at d
    exact d.imp id fun ⟨v, hv, rest⟩ => ⟨v, h v hv, rest⟩

end Sys2Proof.Machine
end

