-- ==== Sys2Proof/Laws/Exec.lean ====
section
/-! SUPPORT. Everything an instruction can do, said once: `exec_effect`. A whole-machine rule is a case split on it. -/

namespace Sys2Proof.Machine

/-- The instruction reads the input port. -/
def ReadsPort (i : Instr) (s : State) : Prop :=
  ∃ ea, s.readAddress i = some ea ∧ ea.toNat ≤ 0xFFFE ∧ s.PortAccess ea

/-- What an instruction that completes does outside the registers and flags. -/
inductive Outside (i : Instr) (s t : State) : Prop where
  /-- nothing -/
  | nothing (mem : t.mem = s.mem) (input : SameInput s t) (history : t.history = s.history) (port : ¬ ReadsPort i s)
  /-- a byte emitted -/
  | emits (b : Byte) (mem : t.mem = s.mem) (input : SameInput s t) (history : t.history = s.history ++ [.emitted b])
      (port : ¬ ReadsPort i s)
  /-- a word stored in the array, outside the port range -/
  | stores (ea : EffAddr) (v : Word) (inRange : ea.toNat ≤ 0xFFFE) (array : ¬ s.PortAccess ea)
      (mem : t.mem = s.mem.storeWord ea.toNat v) (input : SameInput s t) (history : t.history = s.history)
      (port : ¬ ReadsPort i s)
  /-- a port read answered by the host -/
  | reads (v : Word) (mem : t.mem = s.mem) (answer : PortAnswer s t v) (port : ReadsPort i s)

/-- An instruction that completes. -/
structure Completed (i : Instr) (s t : State) : Prop where
  cfg : t.cfg = s.cfg
  inputEnded : t.inputEnded = s.inputEnded
  control : (i = .hlt ∧ t.halted = true ∧ t.engine = .halted) ∨ (t.halted = s.halted ∧ t.engine = s.engine)
  regs : ∀ q, q ≠ .pc → destination i ≠ some q → ¬ (q = .sp ∧ movesStack i = true) → t.reg q = s.reg q
  carry : writesAllFlags i = false → t.flags.cf = s.flags.cf
  flags : writesAllFlags i = false → keepsCarry i = false → t.flags = s.flags
  outside : Outside i s t

/-- What an instruction answers with. -/
inductive Effect (i : Instr) (s t : State) : Prop where
  /-- it completes -/
  | completes (h : Completed i s t)
  /-- it reports a fault and does nothing else -/
  | faults (fatal : Bool) (kind : FaultKind) (len : Nat) (info : BitVec 17) (h : Faults s t fatal kind len info)
      (mem : t.mem = s.mem) (port : ¬ ReadsPort i s)
  /-- it waits at a port read with no answer -/
  | waits (h : t = s.hold) (input : s.input = []) (ended : s.inputEnded = false) (port : ReadsPort i s)

/-! ### Instructions without a data access -/

theorem not_readsPort_of_none {i : Instr} {s : State} (h : s.readAddress i = none) : ¬ ReadsPort i s := by
  rintro ⟨ea, h', _⟩
  rw [h] at h'
  cases h'

/-- Registers and flags alone: PC past the instruction, the destination and the flags written as they may be. -/
theorem Completed.ofRegisters {i : Instr} {s t : State} (hr : s.readAddress i = none)
    (ho : SameInput s t ∧ t.history = s.history ∧ SameControl s t) (hm : t.mem = s.mem)
    (regs : ∀ q, q ≠ .pc → destination i ≠ some q → t.reg q = s.reg q)
    (carry : writesAllFlags i = false → t.flags.cf = s.flags.cf)
    (flags : writesAllFlags i = false → keepsCarry i = false → t.flags = s.flags) : Completed i s t where
  cfg := ho.2.2.2.2
  inputEnded := ho.1.2.1
  control := .inr ⟨ho.2.2.1, ho.2.2.2.1⟩
  regs q h1 h2 _ := regs q h1 h2
  carry := carry
  flags := flags
  outside := .nothing hm ho.1 ho.2.1 (not_readsPort_of_none hr)

theorem State.writeAlu_sameOutside (s : State) (n : Nat) (d : Reg) (r : Word × Flags) :
    SameInput s ((s.advance n).writeAlu d r) ∧ ((s.advance n).writeAlu d r).history = s.history ∧
      SameControl s ((s.advance n).writeAlu d r) := by
  simp [SameInput, SameControl]

theorem State.writeAlu_reg_other (s : State) (n : Nat) (d : Reg) (r : Word × Flags) (q : Reg) (hq : q ≠ .pc)
    (hd : q ≠ d) : ((s.advance n).writeAlu d r).reg q = s.reg q := by
  rw [State.writeAlu_reg, if_neg hd, State.advance_reg, if_neg hq]

/-! ### Instructions with a data access -/

/-- A word write in a shape: a store (`k` leaves the state), a push or a call (`k` writes SP and PC). -/
theorem Effect.ofWrite {i : Instr} {s : State} {len : Nat} {ea : EffAddr} {v : Word} {acc : Access Unit}
    {f : State → State} {k : Unit → State → State} {t : State} (hr : s.readAddress i = none)
    (hacc : acc = .outOfRange ea ∨ ∃ u, acc = .done () (f u) ∧ WriteDone (s.advance len) u ea v)
    (hk : ∀ u, (k () (f u)).flags = u.flags ∧ (k () (f u)).mem = u.mem ∧ SameInput u (k () (f u)) ∧
      (k () (f u)).history = u.history ∧ SameControl u (k () (f u)) ∧
      ∀ q, q ≠ .pc → ¬ (q = .sp ∧ movesStack i = true) → (k () (f u)).reg q = u.reg q)
    (h : acc.finish s (s.advance len) k = .next t) : Effect i s t := by
  have hp := not_readsPort_of_none hr
  rcases hacc with rfl | ⟨u, rfl, hle, hd⟩
  · cases h
    exact .faults _ _ _ _ (s.raiseLocal_faults _ _ _) (by simp) hp
  · cases h
    obtain ⟨kf, km, ki, kh, kc, kr⟩ := hk u
    have hu : u.flags = s.flags ∧ SameInput s u ∧ SameControl s u ∧ ∀ q, q ≠ .pc → u.reg q = s.reg q := by
      rcases hd with ⟨_, rfl⟩ | ⟨_, rfl⟩ <;>
        exact ⟨by simp, by simp [SameInput], by simp [SameControl], fun q hq => by simp [State.advance_reg, hq]⟩
    have hin : SameInput s (k () (f u)) := ⟨ki.1.trans hu.2.1.1, ki.2.1.trans hu.2.1.2.1, ki.2.2.trans hu.2.1.2.2⟩
    refine .completes ⟨kc.2.2.trans hu.2.2.1.2.2, hin.2.1, .inr ⟨kc.1.trans hu.2.2.1.1, kc.2.1.trans hu.2.2.1.2.1⟩,
      fun q h1 _ h3 => (kr q h1 h3).trans (hu.2.2.2 q h1), fun _ => by rw [kf, hu.1], fun _ _ => kf.trans hu.1, ?_⟩
    rcases hd with ⟨_, rfl⟩ | ⟨ha, rfl⟩
    · exact .emits (lowByte v) (by rw [km]; rfl) hin (by rw [kh]; rfl) hp
    · exact .stores ea v hle ha (by rw [km]; rfl) hin (by rw [kh]; rfl) hp

/-- A word read in a shape: a load (`k` writes the destination), a pop or a return. -/
theorem Effect.ofRead {i : Instr} {s : State} {len : Nat} {ea : EffAddr} {acc : Access Word} {f : State → State}
    {k : Word → State → State} {t : State} (hr : s.readAddress i = some ea)
    (hacc : (0xFFFE < ea.toNat ∧ acc = .outOfRange ea) ∨
      (ea.toNat ≤ 0xFFFE ∧ s.PortAccess ea ∧ s.input = [] ∧ s.inputEnded = false ∧ acc = .waits) ∨
      ∃ v u, acc = .done v (f u) ∧ ReadDone (s.advance len) u ea v)
    (hk : ∀ v u, (k v (f u)).flags = u.flags ∧ (k v (f u)).mem = u.mem ∧ SameInput u (k v (f u)) ∧
      (k v (f u)).history = u.history ∧ SameControl u (k v (f u)) ∧
      ∀ q, q ≠ .pc → destination i ≠ some q → ¬ (q = .sp ∧ movesStack i = true) → (k v (f u)).reg q = u.reg q)
    (h : acc.finish s (s.advance len) k = .next t) : Effect i s t := by
  have hport : ReadsPort i s ↔ ea.toNat ≤ 0xFFFE ∧ s.PortAccess ea := by
    simp [ReadsPort, hr]
  rcases hacc with ⟨hb, rfl⟩ | ⟨hb, hp, hin, he, rfl⟩ | ⟨v, u, rfl, hle, hfr, hv⟩
  · cases h
    exact .faults _ _ _ _ (s.raiseLocal_faults _ _ _) (by simp) fun h => by have := hport.1 h; omega
  · cases h
    exact .waits rfl hin he (hport.2 ⟨hb, hp⟩)
  · cases h
    obtain ⟨kf, km, ki, kh, kc, kr⟩ := hk v u
    have hu : u.flags = s.flags ∧ u.mem = s.mem ∧ SameControl s u ∧ u.inputEnded = s.inputEnded ∧
        ∀ q, q ≠ .pc → u.reg q = s.reg q := by
      rw [hfr]
      refine ⟨rfl, rfl, ⟨rfl, rfl, rfl⟩, rfl, fun q hq => ?_⟩
      cases q <;> first | rfl | exact absurd rfl hq
    refine .completes ⟨kc.2.2.trans hu.2.2.1.2.2, ki.2.1.trans hu.2.2.2.1,
      .inr ⟨kc.1.trans hu.2.2.1.1, kc.2.1.trans hu.2.2.1.2.1⟩, fun q h1 h2 h3 => (kr q h1 h2 h3).trans (hu.2.2.2.2 q h1),
      fun _ => by rw [kf, hu.1], fun _ _ => kf.trans hu.1, ?_⟩
    rcases hv with ⟨hp, h1, h2, h3⟩ | ⟨hp, _, rfl⟩
    · refine .reads v (km.trans hu.2.1) ⟨ki.2.2.trans h1, ki.2.1.trans h2, ?_⟩ (hport.2 ⟨hle, hp⟩)
      rw [ki.1, kh]
      exact h3
    · exact .nothing (km.trans hu.2.1) ⟨ki.1, ki.2.1, ki.2.2⟩ kh fun h => hp (hport.1 h).2

/-! ### Every instruction -/

/-- Everything an instruction can do: complete, within what its operands name; report a fault and do nothing else; or
wait for the host at a port read. -/
theorem exec_effect {i : Instr} {s t : State} (h : exec i s = .next t) : Effect i s t := by
  cases i with
  | movReg d r | movImm d imm =>
    cases h
    refine .completes (.ofRegisters rfl (by simp [SameInput, SameControl]) (by simp) (fun q h1 h2 => ?_)
      (fun _ => by simp) fun _ _ => by simp)
    rw [State.setReg_reg, if_neg (by rintro rfl; exact h2 rfl), State.advance_reg, if_neg h1]
  | load d b off =>
    refine .ofRead (f := id) (ea := effAddr (s.src 5 b) off) rfl ?_ (fun v u => ?_) h
    · rw [State.advance_reg_eq_src]
      exact (s.advance 5).memRead_cases _
    · refine ⟨by simp, by simp, by simp [SameInput], by simp, by simp [SameControl], fun q _ h2 _ => ?_⟩
      rw [State.setReg_reg, if_neg (by rintro rfl; exact h2 rfl)]; rfl
  | storeReg b off r | storeImm b off imm =>
    refine .ofWrite (f := id) rfl (((s.advance _).memWrite_cases _ _).imp And.right id) (fun u => ?_) h
    exact ⟨rfl, rfl, ⟨rfl, rfl, rfl⟩, rfl, ⟨rfl, rfl, rfl⟩, fun _ _ _ => rfl⟩
  | addReg d r | addImm d imm | subReg d r | subImm d imm | mulReg d r | mulImm d imm | andReg d r | andImm d imm
  | orReg d r | orImm d imm =>
    cases h
    exact .completes (.ofRegisters rfl (s.writeAlu_sameOutside _ _ _) (by simp [State.aluReg, State.aluImm])
      (fun q h1 h2 => s.writeAlu_reg_other _ _ _ q h1 (by rintro rfl; exact h2 rfl)) nofun nofun)
  | divReg d r | divImm d imm =>
    cases h
    rcases s.divide_cases (s.advance _) d _ with ⟨_, e⟩ | ⟨_, r, _, e⟩ <;> rw [e]
    · exact .faults _ _ _ _ (s.raiseFatal_faults _ _ _) (by simp) (not_readsPort_of_none rfl)
    · exact .completes (.ofRegisters rfl (s.writeAlu_sameOutside _ _ _) (by simp)
        (fun q h1 h2 => s.writeAlu_reg_other _ _ _ q h1 (by rintro rfl; exact h2 rfl)) nofun nofun)
  | cmpReg d r | cmpImm d imm =>
    cases h
    refine .completes (.ofRegisters rfl (by simp [SameInput, SameControl]) (by simp) (fun q h1 _ => ?_) nofun nofun)
    rw [State.setFlags_reg, State.advance_reg, if_neg h1]
  | inc r | dec r =>
    cases h
    exact .completes (.ofRegisters rfl (s.writeAlu_sameOutside _ _ _) (by simp [State.aluOne])
      (fun q h1 h2 => s.writeAlu_reg_other _ _ _ q h1 (by rintro rfl; exact h2 rfl))
      (fun _ => by simp [State.aluOne, incOp, decOp, resultFlags]) nofun)
  | pushReg r | pushImm imm =>
    refine .ofWrite (f := fun u => u.setReg .sp (s.sp - 2)) rfl
      (((s.advance _).push_cases _).imp And.right id) (fun u => ?_) h
    exact ⟨by simp, by simp, by simp [SameInput], by simp, by simp [SameControl],
      fun q _ h2 => by rw [State.setReg_reg, if_neg fun h => h2 ⟨h, rfl⟩]⟩
  | pop d =>
    refine .ofRead (f := fun u => u.setReg .sp (s.sp + 2)) (ea := s.sp.setWidth 17) rfl ?_
      (fun v u => ?_) h
    · rw [toNat_setWidth_17]
      exact (s.advance 2).pop_cases
    · refine ⟨by simp, by simp, by simp [SameInput], by simp, by simp [SameControl], fun q _ h2 h3 => ?_⟩
      rw [State.setReg_reg, if_neg (by rintro rfl; exact h2 rfl), State.setReg_reg, if_neg fun h => h3 ⟨h, rfl⟩]
  | jmp target | je target | jg target | jge target | ja target | jae target =>
    cases h
    rw [State.jumpIf_eq]
    exact .completes (.ofRegisters rfl (by simp [SameInput, SameControl]) (by simp)
      (fun q h1 _ => by rw [State.setReg_reg, if_neg h1]) (fun _ => by simp) fun _ _ => by simp)
  | call target =>
    refine .ofWrite (f := fun u => u.setReg .sp (s.sp - 2)) rfl
      (((s.advance _).push_cases _).imp And.right id) (fun u => ?_) h
    exact ⟨by simp, by simp, by simp [SameInput], by simp, by simp [SameControl],
      fun q h1 h2 => by rw [State.setReg_reg, if_neg h1, State.setReg_reg, if_neg fun h => h2 ⟨h, rfl⟩]⟩
  | ret =>
    refine .ofRead (f := fun u => u.setReg .sp (s.sp + 2)) (ea := s.sp.setWidth 17) rfl ?_
      (fun v u => ?_) h
    · rw [toNat_setWidth_17]
      exact (s.advance 1).pop_cases
    · refine ⟨by simp, by simp, by simp [SameInput], by simp, by simp [SameControl], fun q h1 _ h3 => ?_⟩
      rw [State.setReg_reg, if_neg h1, State.setReg_reg, if_neg fun h => h3 ⟨h, rfl⟩]
  | hlt =>
    cases h
    refine .completes ⟨rfl, rfl, .inl ⟨rfl, rfl, rfl⟩, fun q h1 _ _ => ?_, fun _ => rfl, fun _ _ => rfl,
      .nothing rfl ⟨rfl, rfl, rfl⟩ rfl (not_readsPort_of_none rfl)⟩
    cases q <;> first | rfl | exact absurd rfl h1

/-! ### Every step -/

/-- Everything a step request can do. -/
inductive StepEffect (s t : State) : Prop where
  /-- nothing, in Halted or Faulted -/
  | stopped (engine : s.engine ≠ .running) (same : t = s)
  /-- the instruction at PC completes -/
  | completes (engine : s.engine = .running) (i : Instr) (decoded : s.fetchDecode = .instr i) (h : Completed i s t)
  /-- a fault is reported, in decode or in execute, and nothing else done; the step was no port read -/
  | faults (engine : s.engine = .running) (fatal : Bool) (kind : FaultKind) (len : Nat) (info : BitVec 17)
      (h : Faults s t fatal kind len info) (mem : t.mem = s.mem) (port : ¬ s.AtPortRead)
  /-- the step waits at a port read with no answer -/
  | waits (h : t = s.hold) (input : s.input = []) (ended : s.inputEnded = false) (port : s.AtPortRead)

theorem State.atPortRead_iff {s : State} {i : Instr} (he : s.engine = .running) (hd : s.fetchDecode = .instr i) :
    s.AtPortRead ↔ ReadsPort i s := by
  constructor
  · rintro ⟨_, j, ea, hj, h⟩
    rw [hd] at hj
    cases hj
    exact ⟨ea, h⟩
  · rintro ⟨ea, h⟩
    exact ⟨he, i, ea, hd, h⟩

theorem State.not_atPortRead {s : State} (hd : ∀ i, s.fetchDecode ≠ .instr i) : ¬ s.AtPortRead := by
  rintro ⟨_, i, _, hi, _⟩
  exact hd i hi

theorem step_effect {s t : State} (h : step s = .next t) : StepEffect s t := by
  rcases step_cases h with ⟨he, rfl⟩ | ⟨he, ⟨i, hd, hx⟩ | ⟨op, hd, rfl⟩ | ⟨v, n, hd, rfl⟩⟩
  · exact .stopped he rfl
  · rcases exec_effect hx with hc | ⟨fatal, kind, len, info, hf, hm, hp⟩ | ⟨ht, hi, hn, hp⟩
    · exact .completes he i hd hc
    · exact .faults he fatal kind len info hf hm (mt (State.atPortRead_iff he hd).1 hp)
    · exact .waits ht hi hn ((State.atPortRead_iff he hd).2 hp)
  · exact .faults he _ _ _ _ (s.raiseLocal_faults _ _ _) (by simp [State.takeUnknownOpcode])
      (State.not_atPortRead fun i => by simp [hd])
  · exact .faults he _ _ _ _ (s.raiseFatal_faults _ _ _) (by simp [State.takeInvalidRegister])
      (State.not_atPortRead fun i => by simp [hd])

end Sys2Proof.Machine
end

