-- ==== Sys2Proof/Laws/PerInstr.lean ====
section
/-! SUPPORT. The family Encoding: one lemma per instruction about the form of its bytes. -/

namespace Sys2Proof.Laws

/-- The bytes of an instruction begin with its opcode byte and are as many as its format says, at least 1 and at most 6
(30_encoding.md R110, R112). -/
def Encoding.Statement (i : Instr) : Prop :=
  ∀ m, (encode m i).head? = some (opcodeByte m i.mnemonic) ∧ (encode m i).length = i.length ∧ 1 ≤ i.length ∧ i.length ≤ 6

theorem Encoding.movReg (d s : Reg) : Encoding.Statement (.movReg d s) :=
  fun _ => ⟨rfl, rfl, Format.length_bounds _⟩

theorem Encoding.movImm (d : Reg) (imm : Word) : Encoding.Statement (.movImm d imm) :=
  fun _ => ⟨rfl, rfl, Format.length_bounds _⟩

theorem Encoding.load (d b : Reg) (off : Word) : Encoding.Statement (.load d b off) :=
  fun _ => ⟨rfl, rfl, Format.length_bounds _⟩

theorem Encoding.storeReg (b : Reg) (off : Word) (s : Reg) : Encoding.Statement (.storeReg b off s) :=
  fun _ => ⟨rfl, rfl, Format.length_bounds _⟩

theorem Encoding.storeImm (b : Reg) (off imm : Word) : Encoding.Statement (.storeImm b off imm) :=
  fun _ => ⟨rfl, rfl, Format.length_bounds _⟩

theorem Encoding.addReg (d s : Reg) : Encoding.Statement (.addReg d s) :=
  fun _ => ⟨rfl, rfl, Format.length_bounds _⟩

theorem Encoding.addImm (d : Reg) (imm : Word) : Encoding.Statement (.addImm d imm) :=
  fun _ => ⟨rfl, rfl, Format.length_bounds _⟩

theorem Encoding.subReg (d s : Reg) : Encoding.Statement (.subReg d s) :=
  fun _ => ⟨rfl, rfl, Format.length_bounds _⟩

theorem Encoding.subImm (d : Reg) (imm : Word) : Encoding.Statement (.subImm d imm) :=
  fun _ => ⟨rfl, rfl, Format.length_bounds _⟩

theorem Encoding.mulReg (d s : Reg) : Encoding.Statement (.mulReg d s) :=
  fun _ => ⟨rfl, rfl, Format.length_bounds _⟩

theorem Encoding.mulImm (d : Reg) (imm : Word) : Encoding.Statement (.mulImm d imm) :=
  fun _ => ⟨rfl, rfl, Format.length_bounds _⟩

theorem Encoding.divReg (d s : Reg) : Encoding.Statement (.divReg d s) :=
  fun _ => ⟨rfl, rfl, Format.length_bounds _⟩

theorem Encoding.divImm (d : Reg) (imm : Word) : Encoding.Statement (.divImm d imm) :=
  fun _ => ⟨rfl, rfl, Format.length_bounds _⟩

theorem Encoding.andReg (d s : Reg) : Encoding.Statement (.andReg d s) :=
  fun _ => ⟨rfl, rfl, Format.length_bounds _⟩

theorem Encoding.andImm (d : Reg) (imm : Word) : Encoding.Statement (.andImm d imm) :=
  fun _ => ⟨rfl, rfl, Format.length_bounds _⟩

theorem Encoding.orReg (d s : Reg) : Encoding.Statement (.orReg d s) :=
  fun _ => ⟨rfl, rfl, Format.length_bounds _⟩

theorem Encoding.orImm (d : Reg) (imm : Word) : Encoding.Statement (.orImm d imm) :=
  fun _ => ⟨rfl, rfl, Format.length_bounds _⟩

theorem Encoding.cmpReg (d s : Reg) : Encoding.Statement (.cmpReg d s) :=
  fun _ => ⟨rfl, rfl, Format.length_bounds _⟩

theorem Encoding.cmpImm (d : Reg) (imm : Word) : Encoding.Statement (.cmpImm d imm) :=
  fun _ => ⟨rfl, rfl, Format.length_bounds _⟩

theorem Encoding.inc (r : Reg) : Encoding.Statement (.inc r) :=
  fun _ => ⟨rfl, rfl, Format.length_bounds _⟩

theorem Encoding.dec (r : Reg) : Encoding.Statement (.dec r) :=
  fun _ => ⟨rfl, rfl, Format.length_bounds _⟩

theorem Encoding.pushReg (r : Reg) : Encoding.Statement (.pushReg r) :=
  fun _ => ⟨rfl, rfl, Format.length_bounds _⟩

theorem Encoding.pushImm (v : Word) : Encoding.Statement (.pushImm v) :=
  fun _ => ⟨rfl, rfl, Format.length_bounds _⟩

theorem Encoding.pop (r : Reg) : Encoding.Statement (.pop r) :=
  fun _ => ⟨rfl, rfl, Format.length_bounds _⟩

theorem Encoding.jmp (v : Word) : Encoding.Statement (.jmp v) :=
  fun _ => ⟨rfl, rfl, Format.length_bounds _⟩

theorem Encoding.je (v : Word) : Encoding.Statement (.je v) :=
  fun _ => ⟨rfl, rfl, Format.length_bounds _⟩

theorem Encoding.jg (v : Word) : Encoding.Statement (.jg v) :=
  fun _ => ⟨rfl, rfl, Format.length_bounds _⟩

theorem Encoding.jge (v : Word) : Encoding.Statement (.jge v) :=
  fun _ => ⟨rfl, rfl, Format.length_bounds _⟩

theorem Encoding.ja (v : Word) : Encoding.Statement (.ja v) :=
  fun _ => ⟨rfl, rfl, Format.length_bounds _⟩

theorem Encoding.jae (v : Word) : Encoding.Statement (.jae v) :=
  fun _ => ⟨rfl, rfl, Format.length_bounds _⟩

theorem Encoding.call (v : Word) : Encoding.Statement (.call v) :=
  fun _ => ⟨rfl, rfl, Format.length_bounds _⟩

theorem Encoding.ret : Encoding.Statement .ret :=
  fun _ => ⟨rfl, rfl, Format.length_bounds _⟩

theorem Encoding.hlt : Encoding.Statement .hlt :=
  fun _ => ⟨rfl, rfl, Format.length_bounds _⟩

end Sys2Proof.Laws
end

