-- ==== Sys2Proof/Tests/Slice0.lean ====
section
/-! SUPPORT. Tests: what WellFormed refuses, the words of the spec's encodings, one step of every instruction against the
vectors of 95_test_vectors.md (their ids in the docstrings), and a witness for the hypotheses of every obligation that has
some. -/

namespace Sys2Proof.Tests

open Sys2Proof.Machine

/-! ### Small states -/

/-- The start state of 95_test_vectors.md section 0: reset, the bytes at `a`, PC = `a`. -/
def placed (a : Word) (bs : List Byte) : State := { State.reset with pc := a, mem := Memory.writeBytes [] a.toNat bs }

/-- More bytes in memory. -/
def withBytes (s : State) (a : Nat) (bs : List Byte) : State := { s with mem := s.mem.writeBytes a bs }

/-- One step is answered with a next state of which `p` holds. -/
def stepsTo (s : State) (p : State → Bool) : Bool :=
  match step s with
  | .next t => p t
  | .fault _ => false
  | .refused _ => false

/-- The flags in the order CF, ZF, SF, OF of the vectors. -/
def czso (t : State) (c z s o : Bool) : Bool := t.flags == ⟨c, z, s, o⟩

/-- The step's only event is this report, and the engine says what the report says. -/
def faulted (t : State) (kind : FaultKind) (pc : Word) (info : BitVec 17) (fatal : Bool) : Bool :=
  t.history == [.reported ⟨kind, pc, info, fatal⟩] && t.engine == (if fatal then .faulted else .running)

/-- The reference configuration with one parameter changed. -/
def strictConfig : Config := { referenceConfig with strictLocalFaults := true }
def signedConfig : Config := { referenceConfig with mulSigned := true, divSigned := true }
def headerConfig : Config := { referenceConfig with entryHeader := true }

/-! ### WellFormed (00_scope.md R10) -/

/-- A map that gives MOV_REG the byte of HLT. -/
def clashingMap : OpcodeMap := ⟨referenceOpcodeMap.bytes.set 0 0x21⟩

/-- Another injective map: MOV_REG is 0xA5. -/
def otherMap : OpcodeMap := ⟨referenceOpcodeMap.bytes.set 0 0xA5⟩

theorem test_wf_reference_map : referenceOpcodeMap.wf = true := by decide
theorem test_wf_other_map : otherMap.wf = true := by decide
theorem test_wf_refuses_clashing_map : clashingMap.wf = false := by decide
theorem test_wf_refuses_clashing_config : ({ referenceConfig with opcodes := clashingMap } : Config).wf = false := by decide
theorem test_wf_refuses_shadowed_instr : Instr.wf clashingMap .hlt = false := by decide
theorem test_wf_refuses_shadowing_instr : Instr.wf clashingMap (.movReg .r1 .r2) = false := by decide
theorem test_wf_accepts_others_there : Instr.wf clashingMap .ret = true := by decide

/-! ### Decoding: one word per constructor, from 30_encoding.md R112, R113, R121 -/

/-- 1.9; the same bits as spec/opcode_table.json numbers them; and the encoder gives the word back. -/
theorem test_decode_movReg :
    decode referenceOpcodeMap (Window.ofBytes [0x01, 0x08, 0x00]) = .instr (.movReg .pc .r1) ∧
      decodeTableWord 24 0x801 = some (.movReg .pc .r1) ∧
      encode referenceOpcodeMap (.movReg .pc .r1) = [0x01, 0x08, 0x00] := by decide

/-- MOV-6; the same bits as spec/opcode_table.json numbers them; and the encoder gives the word back. -/
theorem test_decode_movImm :
    decode referenceOpcodeMap (Window.ofBytes [0x02, 0x00, 0x04, 0x00]) = .instr (.movImm .r1 0x0004) ∧
      decodeTableWord 32 0x40002 = some (.movImm .r1 0x0004) ∧
      encode referenceOpcodeMap (.movImm .r1 0x0004) = [0x02, 0x00, 0x04, 0x00] := by decide

/-- LS-1; the same bits as spec/opcode_table.json numbers them; and the encoder gives the word back. -/
theorem test_decode_load :
    decode referenceOpcodeMap (Window.ofBytes [0x03, 0x00, 0x01, 0x10, 0x00]) = .instr (.load .r1 .r2 0x0010) ∧
      decodeTableWord 40 0x10010003 = some (.load .r1 .r2 0x0010) ∧
      encode referenceOpcodeMap (.load .r1 .r2 0x0010) = [0x03, 0x00, 0x01, 0x10, 0x00] := by decide

/-- LS-9; the same bits as spec/opcode_table.json numbers them; and the encoder gives the word back. -/
theorem test_decode_storeReg :
    decode referenceOpcodeMap (Window.ofBytes [0x04, 0x01, 0x02, 0x00, 0x00]) = .instr (.storeReg .r2 0x0002 .r1) ∧
      decodeTableWord 40 0x20104 = some (.storeReg .r2 0x0002 .r1) ∧
      encode referenceOpcodeMap (.storeReg .r2 0x0002 .r1) = [0x04, 0x01, 0x02, 0x00, 0x00] := by decide

/-- LS-13; the same bits as spec/opcode_table.json numbers them; and the encoder gives the word back. -/
theorem test_decode_storeImm :
    decode referenceOpcodeMap (Window.ofBytes [0x05, 0x02, 0x00, 0x03, 0xFF, 0x00]) = .instr (.storeImm .r3 0x0300 0x00FF) ∧
      decodeTableWord 48 0xFF03000205 = some (.storeImm .r3 0x0300 0x00FF) ∧
      encode referenceOpcodeMap (.storeImm .r3 0x0300 0x00FF) = [0x05, 0x02, 0x00, 0x03, 0xFF, 0x00] := by decide

/-- ADD-1; the same bits as spec/opcode_table.json numbers them; and the encoder gives the word back. -/
theorem test_decode_addReg :
    decode referenceOpcodeMap (Window.ofBytes [0x06, 0x00, 0x01]) = .instr (.addReg .r1 .r2) ∧
      decodeTableWord 24 0x10006 = some (.addReg .r1 .r2) ∧
      encode referenceOpcodeMap (.addReg .r1 .r2) = [0x06, 0x00, 0x01] := by decide

/-- ADD-8; the same bits as spec/opcode_table.json numbers them; and the encoder gives the word back. -/
theorem test_decode_addImm :
    decode referenceOpcodeMap (Window.ofBytes [0x07, 0x08, 0x04, 0x00]) = .instr (.addImm .pc 0x0004) ∧
      decodeTableWord 32 0x40807 = some (.addImm .pc 0x0004) ∧
      encode referenceOpcodeMap (.addImm .pc 0x0004) = [0x07, 0x08, 0x04, 0x00] := by decide

/-- SUB-1; the same bits as spec/opcode_table.json numbers them; and the encoder gives the word back. -/
theorem test_decode_subReg :
    decode referenceOpcodeMap (Window.ofBytes [0x08, 0x00, 0x01]) = .instr (.subReg .r1 .r2) ∧
      decodeTableWord 24 0x10008 = some (.subReg .r1 .r2) ∧
      encode referenceOpcodeMap (.subReg .r1 .r2) = [0x08, 0x00, 0x01] := by decide

/-- SUB-5; the same bits as spec/opcode_table.json numbers them; and the encoder gives the word back. -/
theorem test_decode_subImm :
    decode referenceOpcodeMap (Window.ofBytes [0x09, 0x03, 0x03, 0x00]) = .instr (.subImm .r4 0x0003) ∧
      decodeTableWord 32 0x30309 = some (.subImm .r4 0x0003) ∧
      encode referenceOpcodeMap (.subImm .r4 0x0003) = [0x09, 0x03, 0x03, 0x00] := by decide

/-- MUL-1; the same bits as spec/opcode_table.json numbers them; and the encoder gives the word back. -/
theorem test_decode_mulReg :
    decode referenceOpcodeMap (Window.ofBytes [0x0A, 0x00, 0x01]) = .instr (.mulReg .r1 .r2) ∧
      decodeTableWord 24 0x1000A = some (.mulReg .r1 .r2) ∧
      encode referenceOpcodeMap (.mulReg .r1 .r2) = [0x0A, 0x00, 0x01] := by decide

/-- P5; the same bits as spec/opcode_table.json numbers them; and the encoder gives the word back. -/
theorem test_decode_mulImm :
    decode referenceOpcodeMap (Window.ofBytes [0x0B, 0x01, 0x03, 0x00]) = .instr (.mulImm .r2 0x0003) ∧
      decodeTableWord 32 0x3010B = some (.mulImm .r2 0x0003) ∧
      encode referenceOpcodeMap (.mulImm .r2 0x0003) = [0x0B, 0x01, 0x03, 0x00] := by decide

/-- DIV-1; the same bits as spec/opcode_table.json numbers them; and the encoder gives the word back. -/
theorem test_decode_divReg :
    decode referenceOpcodeMap (Window.ofBytes [0x0C, 0x00, 0x01]) = .instr (.divReg .r1 .r2) ∧
      decodeTableWord 24 0x1000C = some (.divReg .r1 .r2) ∧
      encode referenceOpcodeMap (.divReg .r1 .r2) = [0x0C, 0x00, 0x01] := by decide

/-- DIV-6; the same bits as spec/opcode_table.json numbers them; and the encoder gives the word back. -/
theorem test_decode_divImm :
    decode referenceOpcodeMap (Window.ofBytes [0x0D, 0x00, 0x02, 0x00]) = .instr (.divImm .r1 0x0002) ∧
      decodeTableWord 32 0x2000D = some (.divImm .r1 0x0002) ∧
      encode referenceOpcodeMap (.divImm .r1 0x0002) = [0x0D, 0x00, 0x02, 0x00] := by decide

/-- AND-1; the same bits as spec/opcode_table.json numbers them; and the encoder gives the word back. -/
theorem test_decode_andReg :
    decode referenceOpcodeMap (Window.ofBytes [0x0E, 0x00, 0x01]) = .instr (.andReg .r1 .r2) ∧
      decodeTableWord 24 0x1000E = some (.andReg .r1 .r2) ∧
      encode referenceOpcodeMap (.andReg .r1 .r2) = [0x0E, 0x00, 0x01] := by decide

/-- AND-3; the same bits as spec/opcode_table.json numbers them; and the encoder gives the word back. -/
theorem test_decode_andImm :
    decode referenceOpcodeMap (Window.ofBytes [0x0F, 0x00, 0xFF, 0x00]) = .instr (.andImm .r1 0x00FF) ∧
      decodeTableWord 32 0xFF000F = some (.andImm .r1 0x00FF) ∧
      encode referenceOpcodeMap (.andImm .r1 0x00FF) = [0x0F, 0x00, 0xFF, 0x00] := by decide

/-- OR-1; the same bits as spec/opcode_table.json numbers them; and the encoder gives the word back. -/
theorem test_decode_orReg :
    decode referenceOpcodeMap (Window.ofBytes [0x10, 0x00, 0x01]) = .instr (.orReg .r1 .r2) ∧
      decodeTableWord 24 0x10010 = some (.orReg .r1 .r2) ∧
      encode referenceOpcodeMap (.orReg .r1 .r2) = [0x10, 0x00, 0x01] := by decide

/-- OR-3; the same bits as spec/opcode_table.json numbers them; and the encoder gives the word back. -/
theorem test_decode_orImm :
    decode referenceOpcodeMap (Window.ofBytes [0x11, 0x00, 0x00, 0x0F]) = .instr (.orImm .r1 0x0F00) ∧
      decodeTableWord 32 0xF000011 = some (.orImm .r1 0x0F00) ∧
      encode referenceOpcodeMap (.orImm .r1 0x0F00) = [0x11, 0x00, 0x00, 0x0F] := by decide

/-- P3; the same bits as spec/opcode_table.json numbers them; and the encoder gives the word back. -/
theorem test_decode_cmpReg :
    decode referenceOpcodeMap (Window.ofBytes [0x12, 0x02, 0x01]) = .instr (.cmpReg .r3 .r2) ∧
      decodeTableWord 24 0x10212 = some (.cmpReg .r3 .r2) ∧
      encode referenceOpcodeMap (.cmpReg .r3 .r2) = [0x12, 0x02, 0x01] := by decide

/-- CMP-4; the same bits as spec/opcode_table.json numbers them; and the encoder gives the word back. -/
theorem test_decode_cmpImm :
    decode referenceOpcodeMap (Window.ofBytes [0x13, 0x00, 0x04, 0x00]) = .instr (.cmpImm .r1 0x0004) ∧
      decodeTableWord 32 0x40013 = some (.cmpImm .r1 0x0004) ∧
      encode referenceOpcodeMap (.cmpImm .r1 0x0004) = [0x13, 0x00, 0x04, 0x00] := by decide

/-- INC-5; the same bits as spec/opcode_table.json numbers them; and the encoder gives the word back. -/
theorem test_decode_inc :
    decode referenceOpcodeMap (Window.ofBytes [0x14, 0x08]) = .instr (.inc .pc) ∧
      decodeTableWord 16 0x814 = some (.inc .pc) ∧
      encode referenceOpcodeMap (.inc .pc) = [0x14, 0x08] := by decide

/-- DEC-4; the same bits as spec/opcode_table.json numbers them; and the encoder gives the word back. -/
theorem test_decode_dec :
    decode referenceOpcodeMap (Window.ofBytes [0x15, 0x09]) = .instr (.dec .sp) ∧
      decodeTableWord 16 0x915 = some (.dec .sp) ∧
      encode referenceOpcodeMap (.dec .sp) = [0x15, 0x09] := by decide

/-- P5; the same bits as spec/opcode_table.json numbers them; and the encoder gives the word back. -/
theorem test_decode_pushReg :
    decode referenceOpcodeMap (Window.ofBytes [0x16, 0x0A]) = .instr (.pushReg .fp) ∧
      decodeTableWord 16 0xA16 = some (.pushReg .fp) ∧
      encode referenceOpcodeMap (.pushReg .fp) = [0x16, 0x0A] := by decide

/-- STK-4; the same bits as spec/opcode_table.json numbers them; and the encoder gives the word back. -/
theorem test_decode_pushImm :
    decode referenceOpcodeMap (Window.ofBytes [0x17, 0x02, 0x01]) = .instr (.pushImm 0x0102) ∧
      decodeTableWord 24 0x10217 = some (.pushImm 0x0102) ∧
      encode referenceOpcodeMap (.pushImm 0x0102) = [0x17, 0x02, 0x01] := by decide

/-- P5; the same bits as spec/opcode_table.json numbers them; and the encoder gives the word back. -/
theorem test_decode_pop :
    decode referenceOpcodeMap (Window.ofBytes [0x18, 0x0A]) = .instr (.pop .fp) ∧
      decodeTableWord 16 0xA18 = some (.pop .fp) ∧
      encode referenceOpcodeMap (.pop .fp) = [0x18, 0x0A] := by decide

/-- CF-1; the same bits as spec/opcode_table.json numbers them; and the encoder gives the word back. -/
theorem test_decode_jmp :
    decode referenceOpcodeMap (Window.ofBytes [0x19, 0x10, 0x00]) = .instr (.jmp 0x0010) ∧
      decodeTableWord 24 0x1019 = some (.jmp 0x0010) ∧
      encode referenceOpcodeMap (.jmp 0x0010) = [0x19, 0x10, 0x00] := by decide

/-- CF-2; the same bits as spec/opcode_table.json numbers them; and the encoder gives the word back. -/
theorem test_decode_je :
    decode referenceOpcodeMap (Window.ofBytes [0x1A, 0x20, 0x00]) = .instr (.je 0x0020) ∧
      decodeTableWord 24 0x201A = some (.je 0x0020) ∧
      encode referenceOpcodeMap (.je 0x0020) = [0x1A, 0x20, 0x00] := by decide

/-- CF-4; the same bits as spec/opcode_table.json numbers them; and the encoder gives the word back. -/
theorem test_decode_jg :
    decode referenceOpcodeMap (Window.ofBytes [0x1B, 0x30, 0x00]) = .instr (.jg 0x0030) ∧
      decodeTableWord 24 0x301B = some (.jg 0x0030) ∧
      encode referenceOpcodeMap (.jg 0x0030) = [0x1B, 0x30, 0x00] := by decide

/-- CF-5; the same bits as spec/opcode_table.json numbers them; and the encoder gives the word back. -/
theorem test_decode_jge :
    decode referenceOpcodeMap (Window.ofBytes [0x1C, 0x40, 0x00]) = .instr (.jge 0x0040) ∧
      decodeTableWord 24 0x401C = some (.jge 0x0040) ∧
      encode referenceOpcodeMap (.jge 0x0040) = [0x1C, 0x40, 0x00] := by decide

/-- 1.2; the same bits as spec/opcode_table.json numbers them; and the encoder gives the word back. -/
theorem test_decode_ja :
    decode referenceOpcodeMap (Window.ofBytes [0x1D, 0x40, 0x00]) = .instr (.ja 0x0040) ∧
      decodeTableWord 24 0x401D = some (.ja 0x0040) ∧
      encode referenceOpcodeMap (.ja 0x0040) = [0x1D, 0x40, 0x00] := by decide

/-- P3; the same bits as spec/opcode_table.json numbers them; and the encoder gives the word back. -/
theorem test_decode_jae :
    decode referenceOpcodeMap (Window.ofBytes [0x1E, 0x0C, 0x00]) = .instr (.jae 0x000C) ∧
      decodeTableWord 24 0xC1E = some (.jae 0x000C) ∧
      encode referenceOpcodeMap (.jae 0x000C) = [0x1E, 0x0C, 0x00] := by decide

/-- CF-6; the same bits as spec/opcode_table.json numbers them; and the encoder gives the word back. -/
theorem test_decode_call :
    decode referenceOpcodeMap (Window.ofBytes [0x1F, 0x00, 0x01]) = .instr (.call 0x0100) ∧
      decodeTableWord 24 0x1001F = some (.call 0x0100) ∧
      encode referenceOpcodeMap (.call 0x0100) = [0x1F, 0x00, 0x01] := by decide

/-- CF-7; the same bits as spec/opcode_table.json numbers them; and the encoder gives the word back. -/
theorem test_decode_ret :
    decode referenceOpcodeMap (Window.ofBytes [0x20]) = .instr (.ret) ∧
      decodeTableWord 8 0x20 = some (.ret) ∧
      encode referenceOpcodeMap (.ret) = [0x20] := by decide

/-- CF-12; the same bits as spec/opcode_table.json numbers them; and the encoder gives the word back. -/
theorem test_decode_hlt :
    decode referenceOpcodeMap (Window.ofBytes [0x21]) = .instr (.hlt) ∧
      decodeTableWord 8 0x21 = some (.hlt) ∧
      encode referenceOpcodeMap (.hlt) = [0x21] := by decide

/-- R113: the last register byte that names a register, and the first that names none. -/
theorem test_register_bytes :
    regOfByte 0x07 = some .r8 ∧ regOfByte 0x08 = some .pc ∧ regOfByte 0x0A = some .fp ∧ regOfByte 0x0B = none ∧
      regOfByte 0xFF = none := by decide

/-- R121, R123: the edges of the reference map. -/
theorem test_opcode_edges :
    mnemonicOfByte referenceOpcodeMap 0x00 = none ∧ mnemonicOfByte referenceOpcodeMap 0x01 = some .movReg ∧
      mnemonicOfByte referenceOpcodeMap 0x21 = some .hlt ∧ mnemonicOfByte referenceOpcodeMap 0x22 = none ∧
      mnemonicOfByte referenceOpcodeMap 0xFF = none := by decide

/-- DEC-R1, DEC-R2, DEC-R3: the first bad register byte in stream order. -/
theorem test_decode_bad_registers :
    decode referenceOpcodeMap (Window.ofBytes [0x01, 0x0B, 0x00]) = .invalidRegister 0x0B 3 ∧
      decode referenceOpcodeMap (Window.ofBytes [0x04, 0x0C, 0x00, 0x00, 0x0B]) = .invalidRegister 0x0C 5 ∧
      decode referenceOpcodeMap (Window.ofBytes [0x04, 0x00, 0x00, 0x00, 0xFF]) = .invalidRegister 0xFF 5 := by decide

/-- DEC-U1: the word 0x00 and what `decodeTableWord` makes of it. -/
theorem test_decode_unknown :
    decode referenceOpcodeMap (Window.ofBytes [0x00]) = .unknownOpcode 0x00 ∧ decodeTableWord 8 0 = none := by decide

/-- Another map moves the opcode byte and nothing else (R10). -/
theorem test_decode_other_map :
    decode otherMap (Window.ofBytes [0xA5, 0x08, 0x00]) = .instr (.movReg .pc .r1) ∧
      decode otherMap (Window.ofBytes [0x01, 0x08, 0x00]) = .unknownOpcode 0x01 := by decide

/-! ### One step of each instruction -/

/-- MOV-3 -/
theorem test_mov_reg_from_pc :
    stepsTo (placed 0x0010 [0x01, 0x00, 0x08])
      (fun t => t.r1 == 0x0013 && t.pc == 0x0013) = true := by decide

/-- MOV-4 -/
theorem test_mov_reg_to_pc :
    stepsTo ({ placed 0 [0x01, 0x08, 0x00] with r1 := 0x0040 })
      (fun t => t.pc == 0x0040) = true := by decide

/-- MOV-7 -/
theorem test_mov_imm_keeps_flags :
    stepsTo ({ placed 0 [0x02, 0x00, 0x00, 0x00] with flags := ⟨true, true, true, true⟩, r1 := 5 })
      (fun t => t.r1 == 0 && t.pc == 0x0004 && czso t true true true true) = true := by decide

/-- DEC-W1: the bytes at 0xFFFD to 0x0000. -/
theorem test_mov_imm_fetch_wraps :
    stepsTo (withBytes (placed 0xFFFD [0x02, 0x00, 0x34]) 0 [0x12])
      (fun t => t.r1 == 0x1234 && t.pc == 0x0001) = true := by decide

/-- LS-1 -/
theorem test_load_array :
    stepsTo (withBytes { placed 0 [0x03, 0x00, 0x01, 0x10, 0x00] with r2 := 0x00F0 } 0x0100 [0x34, 0x12])
      (fun t => t.r1 == 0x1234 && t.pc == 0x0005) = true := by decide

/-- LS-8 -/
theorem test_load_largest_address :
    stepsTo ({ placed 0 [0x03, 0x00, 0x01, 0xFF, 0xFF] with r2 := 0xFFFF, r1 := 0x9999 })
      (fun t => t.r1 == 0x9999 && t.pc == 0x0005 && faulted t .addressOutOfRange 0 0x1FFFE false) = true := by decide

/-- LS-9 -/
theorem test_store_reg_array :
    stepsTo ({ placed 0 [0x04, 0x01, 0x02, 0x00, 0x00] with r1 := 0xBEEF, r2 := 0x0200 })
      (fun t => t.mem.read 0x0202 == 0xEF && t.mem.read 0x0203 == 0xBE && t.pc == 0x0005) = true := by decide

/-- LS-O1 -/
theorem test_store_reg_strict :
    stepsTo ({ placed 0 [0x04, 0x01, 0xFF, 0xFF, 0x00] with r1 := 0x1234, cfg := strictConfig })
      (fun t => faulted t .addressOutOfRange 0 0xFFFF true && t.mem.read 0xFFFF == 0) = true := by decide

/-- LS-13 -/
theorem test_store_imm_array :
    stepsTo (placed 0 [0x05, 0x02, 0x00, 0x03, 0xFF, 0x00])
      (fun t => t.mem.read 0x0300 == 0xFF && t.mem.read 0x0301 == 0x00 && t.pc == 0x0006) = true := by decide

/-- LS-14 -/
theorem test_store_imm_port :
    stepsTo (placed 0 [0x05, 0x00, 0xFE, 0xFF, 0x41, 0x0A])
      (fun t => t.output == [0x41] && t.mem.read 0xFFFE == 0) = true := by decide

/-- ADD-1 -/
theorem test_add_reg :
    stepsTo ({ placed 0 [0x06, 0x00, 0x01] with r1 := 0x8000, r2 := 0x8000 })
      (fun t => t.r1 == 0 && czso t true true false true) = true := by decide

/-- ADD-5 -/
theorem test_add_reg_same :
    stepsTo ({ placed 0 [0x06, 0x00, 0x00] with r1 := 0x4000 })
      (fun t => t.r1 == 0x8000 && czso t false false true true) = true := by decide

/-- ADD-7 -/
theorem test_add_imm :
    stepsTo ({ placed 0 [0x07, 0x00, 0xFF, 0xFF] with r1 := 0x0001 })
      (fun t => t.r1 == 0 && t.pc == 0x0004 && czso t true true false false) = true := by decide

/-- ADD-8 -/
theorem test_add_imm_to_pc :
    stepsTo (placed 0x0010 [0x07, 0x08, 0x04, 0x00])
      (fun t => t.pc == 0x0018 && czso t false false false false) = true := by decide

/-- SUB-1 -/
theorem test_sub_reg :
    stepsTo ({ placed 0 [0x08, 0x00, 0x01] with r1 := 3, r2 := 5 })
      (fun t => t.r1 == 0xFFFE && czso t true false true false) = true := by decide

/-- SUB-3 -/
theorem test_sub_reg_overflow :
    stepsTo ({ placed 0 [0x08, 0x00, 0x01] with r2 := 0x8000 })
      (fun t => t.r1 == 0x8000 && czso t true false true true) = true := by decide

/-- SUB-5 -/
theorem test_sub_imm :
    stepsTo ({ placed 0 [0x09, 0x03, 0x03, 0x00] with r4 := 5 })
      (fun t => t.r4 == 2 && czso t false false false false) = true := by decide

/-- SUB-6 -/
theorem test_sub_imm_borrow :
    stepsTo ({ placed 0 [0x09, 0x00, 0xFF, 0xFF] with r1 := 0x7FFF })
      (fun t => t.r1 == 0x8000 && czso t true false true true) = true := by decide

/-- MUL-2 -/
theorem test_mul_reg_unsigned :
    stepsTo ({ placed 0 [0x0A, 0x00, 0x01] with r1 := 0xFFFF, r2 := 0xFFFF })
      (fun t => t.r1 == 1 && czso t true false false true) = true := by decide

/-- MUL-2 with MUL_SIGNED -/
theorem test_mul_reg_signed :
    stepsTo ({ placed 0 [0x0A, 0x00, 0x01] with r1 := 0xFFFF, r2 := 0xFFFF, cfg := signedConfig })
      (fun t => t.r1 == 1 && czso t false false false false) = true := by decide

/-- MUL-4 -/
theorem test_mul_imm :
    stepsTo ({ placed 0 [0x0B, 0x00, 0x01, 0x01] with r1 := 0x00FF })
      (fun t => t.r1 == 0xFFFF && czso t false false true false) = true := by decide

/-- MUL-5 -/
theorem test_mul_imm_overflow :
    stepsTo ({ placed 0 [0x0B, 0x00, 0x00, 0x01] with r1 := 0x0100 })
      (fun t => t.r1 == 0 && czso t true true false true) = true := by decide

/-- DIV-1 -/
theorem test_div_reg :
    stepsTo ({ placed 0 [0x0C, 0x00, 0x01] with r1 := 4, r2 := 2 })
      (fun t => t.r1 == 2 && czso t false false false false) = true := by decide

/-- DIV-5 -/
theorem test_div_reg_by_zero :
    stepsTo ({ placed 0 [0x0C, 0x00, 0x01] with r1 := 7, flags := ⟨true, false, true, false⟩ })
      (fun t => t.r1 == 7 && t.pc == 3 && !t.halted && faulted t .divisionByZero 0 7 true && czso t true false true false) = true := by decide

/-- DIV-8 -/
theorem test_div_imm_unsigned :
    stepsTo ({ placed 0 [0x0D, 0x00, 0xFF, 0xFF] with r1 := 0x8000 })
      (fun t => t.r1 == 0 && czso t false true false false) = true := by decide

/-- DIV-8 with DIV_SIGNED -/
theorem test_div_imm_signed :
    stepsTo ({ placed 0 [0x0D, 0x00, 0xFF, 0xFF] with r1 := 0x8000, cfg := signedConfig })
      (fun t => t.r1 == 0x8000 && czso t false false true false) = true := by decide

/-- AND-2 -/
theorem test_and_reg :
    stepsTo ({ placed 0 [0x0E, 0x00, 0x00] with r1 := 0x8001, flags := ⟨true, false, false, true⟩ })
      (fun t => t.r1 == 0x8001 && czso t false false true false) = true := by decide

/-- AND-3 -/
theorem test_and_imm :
    stepsTo ({ placed 0 [0x0F, 0x00, 0xFF, 0x00] with r1 := 0x1234 })
      (fun t => t.r1 == 0x0034 && czso t false false false false) = true := by decide

/-- OR-1 -/
theorem test_or_reg :
    stepsTo ({ placed 0 [0x10, 0x00, 0x01] with r1 := 0x8000, r2 := 1 })
      (fun t => t.r1 == 0x8001 && czso t false false true false) = true := by decide

/-- OR-3 -/
theorem test_or_imm :
    stepsTo ({ placed 0 [0x11, 0x00, 0x00, 0x0F] with r1 := 0x00F0 })
      (fun t => t.r1 == 0x0FF0 && czso t false false false false) = true := by decide

/-- CMP-2 -/
theorem test_cmp_reg :
    stepsTo ({ placed 0 [0x12, 0x00, 0x01] with r1 := 3, r2 := 5 })
      (fun t => t.r1 == 3 && czso t true false true false) = true := by decide

/-- CMP-4 -/
theorem test_cmp_imm :
    stepsTo ({ placed 0 [0x13, 0x00, 0x04, 0x00] with r1 := 4 })
      (fun t => t.r1 == 4 && czso t false true false false) = true := by decide

/-- INC-1 -/
theorem test_inc_keeps_carry :
    stepsTo ({ placed 0 [0x14, 0x00] with r1 := 0x7FFF, flags := ⟨true, false, false, false⟩ })
      (fun t => t.r1 == 0x8000 && czso t true false true true) = true := by decide

/-- INC-5 -/
theorem test_inc_pc :
    stepsTo (placed 0x0010 [0x14, 0x08])
      (fun t => t.pc == 0x0013) = true := by decide

/-- DEC-2 -/
theorem test_dec_keeps_carry :
    stepsTo ({ placed 0 [0x15, 0x00] with flags := ⟨true, false, false, false⟩ })
      (fun t => t.r1 == 0xFFFF && czso t true false true false) = true := by decide

/-- DEC-4 -/
theorem test_dec_sp :
    stepsTo (placed 0 [0x15, 0x09])
      (fun t => t.sp == 0xFFFD && czso t false false true false) = true := by decide

/-- STK-2 -/
theorem test_push_reg_sp :
    stepsTo (placed 0 [0x16, 0x09])
      (fun t => t.sp == 0xFFFC && t.mem.read 0xFFFC == 0xFE && t.mem.read 0xFFFD == 0xFF) = true := by decide

/-- STK-3 -/
theorem test_push_reg_pc :
    stepsTo (placed 0x0020 [0x16, 0x08])
      (fun t => t.sp == 0xFFFC && t.mem.read 0xFFFC == 0x22 && t.mem.read 0xFFFD == 0x00) = true := by decide

/-- STK-5 -/
theorem test_push_imm_out_of_range :
    stepsTo ({ placed 0 [0x17, 0x34, 0x12] with sp := 0x0001 })
      (fun t => t.sp == 1 && t.pc == 3 && faulted t .addressOutOfRange 0 0xFFFF false) = true := by decide

/-- STK-6 -/
theorem test_push_imm_port :
    stepsTo ({ placed 0 [0x17, 0x41, 0x12] with sp := 0x0000 })
      (fun t => t.output == [0x41] && t.sp == 0xFFFE && t.mem.read 0xFFFE == 0) = true := by decide

/-- STK-10 -/
theorem test_pop_sp :
    stepsTo (withBytes { placed 0 [0x18, 0x09] with sp := 0xFFFC } 0xFFFC [0x00, 0x80])
      (fun t => t.sp == 0x8000) = true := by decide

/-- STK-12 -/
theorem test_pop_port :
    stepsTo ({ placed 0 [0x18, 0x00] with input := [0x7A] })
      (fun t => t.r1 == 0x007A && t.sp == 0 && t.input == [] && t.consumed == [0x7A]) = true := by decide

/-- CF-14: the bytes at 0xFFFE, 0xFFFF and 0x0000. -/
theorem test_jmp_fetch_wraps :
    stepsTo (withBytes (placed 0xFFFE [0x19, 0x00]) 0 [0x02]) (fun t => t.pc == 0x0200) = true := by decide

/-- CF-2 -/
theorem test_je_taken :
    stepsTo ({ placed 0 [0x1A, 0x20, 0x00] with flags := ⟨false, true, false, false⟩ })
      (fun t => t.pc == 0x0020) = true := by decide

/-- CF-3 -/
theorem test_je_not_taken :
    stepsTo (placed 0 [0x1A, 0x20, 0x00])
      (fun t => t.pc == 3) = true := by decide

/-- CF-4 -/
theorem test_jg_taken :
    stepsTo (placed 0 [0x1B, 0x30, 0x00])
      (fun t => t.pc == 0x0030) = true := by decide

/-- 1.2, row 4, 4 -/
theorem test_jg_not_taken :
    stepsTo ({ placed 0 [0x1B, 0x40, 0x00] with flags := ⟨false, true, false, false⟩ })
      (fun t => t.pc == 3) = true := by decide

/-- 1.2, row 1, 0x8000 -/
theorem test_jge_taken :
    stepsTo ({ placed 0 [0x1C, 0x40, 0x00] with flags := ⟨true, false, true, true⟩ })
      (fun t => t.pc == 0x0040) = true := by decide

/-- CF-5 -/
theorem test_jge_not_taken :
    stepsTo ({ placed 0 [0x1C, 0x40, 0x00] with flags := ⟨false, false, false, true⟩ })
      (fun t => t.pc == 3) = true := by decide

/-- 1.2, row 0x8000, 1 -/
theorem test_ja_taken :
    stepsTo ({ placed 0 [0x1D, 0x40, 0x00] with flags := ⟨false, false, false, true⟩ })
      (fun t => t.pc == 0x0040) = true := by decide

/-- 1.2, row 4, 4 -/
theorem test_ja_not_taken :
    stepsTo ({ placed 0 [0x1D, 0x40, 0x00] with flags := ⟨false, true, false, false⟩ })
      (fun t => t.pc == 3) = true := by decide

/-- 1.2, row 4, 4 -/
theorem test_jae_taken :
    stepsTo ({ placed 0 [0x1E, 0x40, 0x00] with flags := ⟨false, true, false, false⟩ })
      (fun t => t.pc == 0x0040) = true := by decide

/-- 1.2, row 3, 5 -/
theorem test_jae_not_taken :
    stepsTo ({ placed 0 [0x1E, 0x40, 0x00] with flags := ⟨true, false, true, false⟩ })
      (fun t => t.pc == 3) = true := by decide

/-- CF-6 -/
theorem test_call :
    stepsTo (placed 0x0008 [0x1F, 0x00, 0x01])
      (fun t => t.sp == 0xFFFC && t.mem.read 0xFFFC == 0x0B && t.mem.read 0xFFFD == 0 && t.pc == 0x0100) = true := by decide

/-- CF-8 -/
theorem test_call_out_of_range :
    stepsTo ({ placed 0x0008 [0x1F, 0x00, 0x01] with sp := 0x0001 })
      (fun t => t.sp == 1 && t.pc == 0x000B && faulted t .addressOutOfRange 8 0xFFFF false) = true := by decide

/-- CF-7 -/
theorem test_ret :
    stepsTo (withBytes { placed 0 [0x20] with sp := 0xFFFC } 0xFFFC [0x0B, 0x00])
      (fun t => t.pc == 0x000B && t.sp == 0xFFFE) = true := by decide

/-- CF-11 -/
theorem test_ret_out_of_range :
    stepsTo ({ placed 0x0010 [0x20] with sp := 0xFFFF })
      (fun t => t.pc == 0x0011 && t.sp == 0xFFFF && faulted t .addressOutOfRange 0x10 0xFFFF false) = true := by decide

/-- CF-12 -/
theorem test_hlt :
    stepsTo (placed 0x000B [0x21])
      (fun t => t.pc == 0x000C && t.halted && t.engine == .halted) = true := by decide

/-- DEC-W2 -/
theorem test_hlt_fetch_wraps :
    stepsTo (placed 0xFFFF [0x21])
      (fun t => t.pc == 0 && t.halted) = true := by decide

/-! ### The step, faults and the host's side -/

/-- DEC-U1 -/
theorem test_unknown_opcode :
    stepsTo (placed 0 [0x00])
      (fun t => t.pc == 1 && faulted t .unknownOpcode 0 0x00 false) = true := by decide

/-- DEC-U2 -/
theorem test_unknown_opcode_strict :
    stepsTo ({ placed 0 [0x22] with cfg := strictConfig })
      (fun t => t.pc == 1 && faulted t .unknownOpcode 0 0x22 true) = true := by decide

/-- DEC-R2 -/
theorem test_invalid_register :
    stepsTo (placed 0 [0x04, 0x0C, 0x00, 0x00, 0x0B])
      (fun t => t.pc == 5 && faulted t .invalidRegister 0 0x0C true) = true := by decide

/-- ALU-F1 -/
theorem test_alu_invalid_register :
    stepsTo ({ placed 0 [0x06, 0x0B, 0x00] with flags := ⟨true, true, true, true⟩ })
      (fun t => t.pc == 3 && faulted t .invalidRegister 0 0x0B true && czso t true true true true) = true := by decide

/-- CF-13, the second step request: nothing happens. -/
theorem test_step_in_halted :
    stepsTo { placed 1 [0x02, 0x00, 0x01, 0x00] with halted := true, engine := .halted }
      (fun t => t == { placed 1 [0x02, 0x00, 0x01, 0x00] with halted := true, engine := .halted }) = true := by decide

/-- R286, R118: no step in Faulted. -/
theorem test_step_in_faulted :
    stepsTo { placed 0 [0x21] with engine := .faulted } (fun t => t.pc == 0 && !t.halted) = true := by decide

/-- R86, R317: LS-4 while the host has no answer: the step waits and nothing else has happened. -/
theorem test_load_waits :
    stepsTo (placed 0 [0x03, 0x00, 0x01, 0xFE, 0xFF])
      (fun t => t == { placed 0 [0x03, 0x00, 0x01, 0xFE, 0xFF] with inputWaiting := true }) = true := by decide

/-- LS-5: end of input. -/
theorem test_load_at_end_of_input :
    stepsTo { placed 0 [0x03, 0x00, 0x01, 0xFD, 0xFF] with r1 := 0x9999, inputEnded := true }
      (fun t => t.r1 == 0 && t.pc == 5 && t.history == []) = true := by decide

/-- 95_test_vectors.md 1.8 and LS-4: a byte supplied after the wait is the byte read. -/
theorem test_load_after_supply :
    stepsTo ({ placed 0 [0x03, 0x00, 0x01, 0xFE, 0xFF] with inputWaiting := true }.supplyByte 0x41)
      (fun t => t.r1 == 0x0041 && t.pc == 5 && !t.inputWaiting && t.consumed == [0x41]) = true := by decide

/-- `withFetchWord` places CF-14's jump where PC is, over the wrap at 0xFFFF. -/
theorem test_with_fetch_word :
    stepsTo ({ State.reset with pc := 0xFFFE, engine := .faulted }.withFetchWord 24 0x020019)
      (fun t => t.pc == 0x0200) = true := by decide

/-- P1's image: its first bytes lie at 0x0000, PC is 0x0000, and the first step is `mov R1, 4`. -/
theorem test_boot :
    stepsTo (State.boot { State.reset with r1 := 9, pc := 7, engine := .faulted } [0x02, 0x00, 0x04, 0x00, 0x21])
      (fun t => t.r1 == 4 && t.pc == 4) = true := by decide

/-- R312 with ENTRY_HEADER: PC from the image's first word. -/
theorem test_boot_entry_header :
    (State.boot { State.reset with cfg := headerConfig } [0x34, 0x12]).pc = 0x1234 := by decide

/-- R313: an empty image. -/
theorem test_load_of_nothing : (State.reset.load []).2 = .failed ∧ (State.reset.load []).1 = State.reset := by decide

/-- R311: a machine that had halted runs again after reset. -/
theorem test_reset_leaves_halted :
    ({ State.reset with halted := true, engine := .halted, sp := 0 } : State).applyReset = State.reset := by decide

/-- R48: CF and SF. -/
theorem test_inspector_flags : ({ State.reset with flags := ⟨true, false, true, false⟩ } : State).inspect.flags = 0b0101#4 := by
  decide

/-- R48: ZF and OF. -/
theorem test_inspector_flags' : ({ State.reset with flags := ⟨false, true, false, true⟩ } : State).inspect.flags = 0b1010#4 := by
  decide

/-- Writing 0x00 removes the cell: equal memories are equal lists. -/
theorem test_memory_canonical : (Memory.write (Memory.write [] 5 7) 5 0) = [] ∧
    Memory.write (Memory.write [] 5 7) 3 9 = [(3, 9), (5, 7)] := by decide

/-! ### Witnesses: the hypotheses of the obligations are met, each clause at its boundary -/

/-- `s` answers `p` for an instruction given as syntax, PC at its first byte. -/
def execTo (i : Instr) (s : State) (p : State → Bool) : Bool :=
  match exec i s with
  | .next t => p t
  | .fault _ => false
  | .refused _ => false

/-- DecodeOfEncodeIsTheInstruction: a well-formed instruction under each of two maps, bytes following. -/
theorem witness_DecodeOfEncodeIsTheInstruction :
    Instr.wf referenceOpcodeMap (.storeImm .fp 0xFFFF 0x8001) = true ∧ Instr.wf otherMap (.movReg .pc .sp) = true ∧
      decode otherMap (Window.ofBytes (encode otherMap (.movReg .pc .sp) ++ [0xFF, 0xFF])) = .instr (.movReg .pc .sp) := by
  decide

/-- EncodeOfDecodeIsTheBytes: two windows that agree on the one byte of HLT and on nothing else. -/
theorem witness_EncodeOfDecodeIsTheBytes :
    decode referenceOpcodeMap ⟨0x21, 1, 2, 3, 4, 5⟩ = .instr .hlt ∧
      (Window.toList ⟨0x21, 9, 9, 9, 9, 9⟩).take (Instr.length .hlt) =
        (Window.toList ⟨0x21, 1, 2, 3, 4, 5⟩).take (Instr.length .hlt) := by decide

/-- InjectiveMapsEncodeEveryInstruction: another configuration than the reference one. -/
theorem witness_InjectiveMapsEncodeEveryInstruction :
    Config.wf { referenceConfig with opcodes := otherMap } = true := by decide

/-- StepRunsTheDecodedInstruction, both clauses; EveryStepAnswersANextState has no hypothesis. -/
theorem witness_StepRunsTheDecodedInstruction :
    ({ State.reset with engine := .halted } : State).engine ≠ .running ∧
      ({ State.reset with engine := .faulted } : State).engine ≠ .running ∧
      (placed 0xFFFF [0x21]).engine = .running ∧
      decode (placed 0xFFFF [0x21]).cfg.opcodes (placed 0xFFFF [0x21]).window = .instr .hlt := by decide

/-- UnknownOpcodeIsALocalFault: both ends of the unknown ranges. -/
theorem witness_UnknownOpcodeIsALocalFault :
    State.reset.engine = .running ∧
      mnemonicOfByte State.reset.cfg.opcodes (State.reset.fetchByte State.reset.pc) = none ∧
      mnemonicOfByte referenceOpcodeMap ((placed 0 [0x22]).fetchByte 0) = none ∧
      mnemonicOfByte referenceOpcodeMap ((placed 0 [0xFF]).fetchByte 0) = none := by decide

/-- InvalidRegisterIsAFatalFault: the first place, the last place, and both (STORE_REG, places 1 and 4). -/
theorem witness_InvalidRegisterIsAFatalFault :
    (placed 0 [0x04, 0x0B, 0, 0, 0]).engine = .running ∧
    mnemonicOfByte referenceOpcodeMap ((placed 0 [0x04, 0x0B, 0, 0, 0]).fetchByte 0) = some .storeReg ∧
    ([1, 4].map fun p => (placed 0 [0x04, 0x0B, 0, 0, 0]).fetchByte (BitVec.ofNat 16 p)).find?
      (fun b => decide (10 < b.toNat)) = some 0x0B ∧
    ([1, 4].map fun p => (placed 0 [0x04, 0x0A, 0, 0, 0xFF]).fetchByte (BitVec.ofNat 16 p)).find?
      (fun b => decide (10 < b.toNat)) = some 0xFF ∧
    ([1, 4].map fun p => (placed 0 [0x04, 0x0C, 0, 0, 0x0B]).fetchByte (BitVec.ofNat 16 p)).find?
      (fun b => decide (10 < b.toNat)) = some 0x0C := by decide

/-- The same for every instruction with a register byte: each RejectsBadRegister has a step that meets its hypotheses, with
11 as the first register byte. -/
theorem witness_RejectsBadRegister :
    (Mnemonic.all.filter fun k => k.format != .i && k.format != .n).all (fun k =>
      stepsTo (placed 0 [opcodeByte referenceOpcodeMap k, 0x0B, 0, 0, 0, 0])
        (fun t => faulted t .invalidRegister 0 0x0B true)) = true := by decide

/-- OneEventPerStep: a step with no event and one with an event. -/
theorem witness_OneEventPerStep :
    step State.reset = .next (State.reset.takeUnknownOpcode 0) ∧
      stepsTo (placed 0 [0x21]) (fun t => t.history == []) = true := ⟨rfl, by decide⟩

/-- ResetIsThePowerOnState: a state after reset that is not the reset state itself. -/
theorem witness_ResetIsThePowerOnState :
    ∃ s : State, (∃ u : State, s = u.applyReset) ∧ s ≠ State.reset :=
  ⟨({ State.reset with input := [1] } : State).applyReset, ⟨_, rfl⟩, by decide⟩

/-- A Running state with memory and input that meets the invariant. -/
def busy : State := { placed 0 [0x18, 0x00] with input := [0x7A] }

/-- A Faulted state whose history says so. -/
def dead : State :=
  { State.reset with engine := .faulted, pc := 3, history := [.reported ⟨.divisionByZero, 0, 7, true⟩] }

/-- A Halted state. -/
def asleep : State := { State.reset with engine := .halted, halted := true, pc := 1 }

/-- A state in which `pop R1` waits for input. -/
def waiting : State := { placed 0 [0x18, 0x00] with inputWaiting := true }

theorem test_inv_busy : busy.Inv where
  memory := by decide
  halted := by decide
  faulted := by simp [busy, placed, State.reset]
  waiting := fun h => absurd h (by decide)

theorem test_inv_dead : dead.Inv where
  memory := by decide
  halted := by decide
  faulted := by simp [dead]
  waiting := fun h => absurd h (by decide)

theorem test_inv_asleep : asleep.Inv where
  memory := by decide
  halted := by decide
  faulted := by simp [asleep, State.reset]
  waiting := fun h => absurd h (by decide)

theorem test_inv_waiting : waiting.Inv where
  memory := by decide
  halted := by decide
  faulted := by simp [waiting, placed, State.reset]
  waiting := fun _ => ⟨rfl, .pop .r1, 0xFFFE, by decide, by decide, by decide, by unfold State.PortAccess; decide⟩

/-- EveryStepKeepsTheInvariant, OnlyHltHalts, FaultedOnlyByAReport, StepsNeverWriteTheConfiguration: steps from states that
meet the invariant in each engine state. -/
theorem witness_EveryStepKeepsTheInvariant :
    (busy.Inv ∧ ∃ t, step busy = .next t) ∧ (dead.Inv ∧ step dead = .next dead) ∧
      (asleep.Inv ∧ asleep.halted = true ∧ step asleep = .next asleep) ∧ (waiting.Inv ∧ ∃ t, step waiting = .next t) :=
  ⟨⟨test_inv_busy, _, rfl⟩, ⟨test_inv_dead, rfl⟩, ⟨test_inv_asleep, rfl, rfl⟩, test_inv_waiting, _, rfl⟩

/-- HostAnswersKeepTheInvariant: a state that waits. -/
theorem witness_HostAnswersKeepTheInvariant : waiting.Inv := test_inv_waiting

/-- CanonicalMemoriesAreDecidedByTheirBytes: a memory with the lowest and the highest address. -/
theorem witness_CanonicalMemoriesAreDecidedByTheirBytes :
    Memory.wf [(0, 1), (0xFFFF, 2)] ∧
      ∀ a, Memory.read [(0, 1), (0xFFFF, 2)] a = Memory.read (Memory.write [(0xFFFF, 2)] 0 1) a :=
  ⟨by decide, fun _ => rfl⟩

/-- OnlyHltHalts: a step that sets the halted flag. -/
theorem witness_OnlyHltHalts :
    (placed 0 [0x21]).halted = false ∧ stepsTo (placed 0 [0x21]) (fun t => t.halted) = true := by decide

/-- FaultsArePrecise: a fatal report and a local one, lenient and strict. -/
theorem witness_FaultsArePrecise :
    stepsTo (placed 0 [0x0D, 0x00, 0x00, 0x00]) (fun t => t.history == [.reported ⟨.divisionByZero, 0, 0, true⟩]) = true ∧
      stepsTo (placed 0 [0x00]) (fun t => t.history == [.reported ⟨.unknownOpcode, 0, 0, false⟩]) = true ∧
      stepsTo { placed 0 [0x00] with cfg := strictConfig }
        (fun t => t.history == [.reported ⟨.unknownOpcode, 0, 0, true⟩]) = true := by decide

/-- FaultedOnlyByAReport: a step that enters Faulted (`dead` above is a state already there). -/
theorem witness_FaultedOnlyByAReport :
    (placed 0 [0x01, 0x0B, 0x00]).engine ≠ .faulted ∧
      stepsTo (placed 0 [0x01, 0x0B, 0x00]) (fun t => t.engine == .faulted) = true ∧ dead.engine = .faulted := by decide

/-- OnlyAluInstructionsWriteFlags: a move, and INC, which writes flags but CF. -/
theorem witness_OnlyAluInstructionsWriteFlags :
    writesAllFlags (.movImm .r1 1) = false ∧ keepsCarry (.movImm .r1 1) = false ∧
      execTo (.movImm .r1 1) State.reset (fun t => t.r1 == 1) = true ∧
      writesAllFlags (.inc .r1) = false ∧ execTo (.inc .r1) { State.reset with r1 := 0xFFFF } (fun t => t.flags.zf) = true := by
  decide

/-- RegistersChangeOnlyWhenNamed: a destination, and SP by a push. -/
theorem witness_RegistersChangeOnlyWhenNamed :
    stepsTo (placed 0 [0x02, 0x0A, 0x01, 0x00]) (fun t => t.reg .fp != (placed 0 []).reg .fp) = true ∧
      stepsTo (placed 0 [0x17, 0x01, 0x00]) (fun t => t.reg .sp != (placed 0 []).reg .sp) = true := by decide

/-- PortRangeBytesAreNeverWritten: both ends of the range, in a step that writes the port. -/
theorem witness_PortRangeBytesAreNeverWritten :
    (placed 0 []).cfg.portBase.toNat ≤ 0xFFFE ∧ (0xFFFE : Nat) ≤ 0xFFFF ∧
      stepsTo (placed 0 [0x05, 0x00, 0xFD, 0xFF, 0x41, 0x42])
        (fun t => t.mem.read 0xFFFE == 0 && t.mem.read 0xFFFD == 0 && t.output == [0x41]) = true := by decide

/-- InputIsTakenByteByByte: a step that takes a byte and one that takes none. -/
theorem witness_InputIsTakenByteByByte :
    stepsTo { placed 0 [0x18, 0x00] with input := [1, 2] } (fun t => t.input == [2]) = true ∧
      stepsTo { placed 0 [0x21] with input := [1, 2] } (fun t => t.input == [1, 2]) = true := by decide

/-- OnlyTheHostsAnswerLiftsAWait: a step that begins to wait. -/
theorem witness_OnlyTheHostsAnswerLiftsAWait :
    (placed 0 [0x18, 0x00]).inputWaiting = false ∧ step (placed 0 [0x18, 0x00]) = .next waiting ∧
      waiting.inputWaiting = true := ⟨rfl, rfl, rfl⟩

/-- LoadReadsAWord: out of range from 0xFFFF, in the array up to 0xFFFC. -/
theorem witness_LoadReadsAWord_range :
    execTo (.load .r1 .r2 0xFFFF) State.reset (fun t => faulted t .addressOutOfRange 0 0xFFFF false) = true ∧
      execTo (.load .r1 .r2 0xFFFC) (withBytes State.reset 0xFFFC [0xCD, 0xAB]) (fun t => t.r1 == 0xABCD) = true := by decide

/-- LoadReadsAWord, in the port range: 0xFFFE waits, 0xFFFE takes a byte, 0xFFFD finds the end of input. -/
theorem witness_LoadReadsAWord_port :
    execTo (.load .r1 .r2 0xFFFE) State.reset (fun t => t == { State.reset with inputWaiting := true }) = true ∧
      execTo (.load .r1 .r2 0xFFFE) { State.reset with input := [0xFF] } (fun t => t.r1 == 0x00FF && t.pc == 5) = true ∧
      execTo (.load .r1 .r2 0xFFFD) { State.reset with inputEnded := true, r1 := 9 } (fun t => t.r1 == 0 && t.pc == 5) = true := by
  decide

/-- StoreRegWritesAWord and StoreImmWritesAWord: the last array word, the first port word, the first out of range. -/
theorem witness_StoreRegWritesAWord :
    execTo (.storeReg .r2 0xFFFC .sp) State.reset (fun t => t.mem.read 0xFFFC == 0xFE && t.mem.read 0xFFFD == 0xFF) = true ∧
      execTo (.storeReg .r2 0xFFFD .sp) State.reset (fun t => t.output == [0xFE] && t.mem == []) = true ∧
      execTo (.storeReg .r2 0xFFFF .sp) State.reset (fun t => faulted t .addressOutOfRange 0 0xFFFF false) = true := by decide

theorem witness_StoreImmWritesAWord :
    execTo (.storeImm .r2 0xFFFC 0x1234) State.reset (fun t => t.mem.read 0xFFFC == 0x34 && t.mem.read 0xFFFD == 0x12) = true ∧
      execTo (.storeImm .r2 0xFFFE 0x1234) State.reset (fun t => t.output == [0x34] && t.mem == []) = true ∧
      execTo (.storeImm .sp 0x0002 0x1234) State.reset (fun t => faulted t .addressOutOfRange 0 0x10000 false) = true := by
  decide

/-- DivOpQuotient: a quotient, signed and unsigned. -/
theorem witness_DivOpQuotient :
    divOp false 7 2 = some (3, ⟨false, false, false, false⟩) ∧
      divOp true 0xFFF9 2 = some (0xFFFD, ⟨false, false, true, false⟩) ∧ divOp true 7 0 = none := by decide

/-- AddThenSubtractIsTheIdentity: 95_test_vectors.md 1.4, row 0x7FFF, 1: OF of the sum. -/
theorem witness_AddThenSubtractIsTheIdentity :
    Reg.r1 ≠ Reg.r2 ∧ Reg.r1 ≠ .pc ∧ Reg.r2 ≠ .pc ∧
      execTo (.addReg .r1 .r2) { State.reset with r1 := 0x7FFF, r2 := 1 } (fun t => t.r1 == 0x8000 && t.flags.of) = true := by
  decide

/-- PushRegPushesARegister: array, port and out of range (SP = 0x0002, 0x0000, 0x0001). -/
theorem witness_PushRegPushesARegister :
    execTo (.pushReg .r1) { State.reset with sp := 2, r1 := 0x1234 } (fun t => t.mem.read 0 == 0x34 && t.sp == 0) = true ∧
      execTo (.pushReg .r1) { State.reset with sp := 0, r1 := 0x1234 } (fun t => t.output == [0x34] && t.sp == 0xFFFE) = true ∧
      execTo (.pushReg .r1) { State.reset with sp := 1 } (fun t => t.sp == 1 && faulted t .addressOutOfRange 0 0xFFFF false) =
        true := by decide

/-- PushImmPushesAWord: STK-8, and the port from its upper end (STK-7). Out of range is STK-5 above. -/
theorem witness_PushImmPushesAWord :
    execTo (.pushImm 0x1234) { State.reset with sp := 3 } (fun t => t.mem.read 1 == 0x34 && t.mem.read 2 == 0x12) = true ∧
      execTo (.pushImm 0x0042) { State.reset with sp := 0xFFFF } (fun t => t.output == [0x42] && t.sp == 0xFFFD) = true := by
  decide

/-- PopPopsIntoARegister: STK-13, STK-14, and the last array word. The wait and the taken byte are above. -/
theorem witness_PopPopsIntoARegister :
    execTo (.pop .r1) { State.reset with sp := 0xFFFF } (fun t => t.sp == 0xFFFF && faulted t .addressOutOfRange 0 0xFFFF false) =
        true ∧
      execTo (.pop .r1) { State.reset with sp := 0xFFFD, inputEnded := true } (fun t => t.r1 == 0 && t.sp == 0xFFFF) = true ∧
      execTo (.pop .pc) (withBytes { State.reset with sp := 0xFFFC } 0xFFFC [0x40, 0x00])
        (fun t => t.pc == 0x0040 && t.sp == 0xFFFE) = true := by decide

/-- PushThenPopRestores and CallThenRetResumes: SP at both ends of what the array can hold. -/
theorem witness_PushThenPopRestores :
    Reg.r2 ≠ Reg.sp ∧ (State.reset.sp - 2).toNat ≤ 0xFFFE ∧ ¬ State.reset.PortAccess ((State.reset.sp - 2).setWidth 17) ∧
      (({ State.reset with sp := 2 } : State).sp - 2).toNat ≤ 0xFFFE ∧
      ¬ ({ State.reset with sp := 2 } : State).PortAccess ((({ State.reset with sp := 2 } : State).sp - 2).setWidth 17) := by
  unfold State.PortAccess; decide

/-- CallThenRetResumes: the state after the call, with other registers changed, meets the inner hypotheses. -/
theorem witness_CallThenRetResumes :
    (State.reset.sp - 2).toNat ≤ 0xFFFE ∧ ¬ State.reset.PortAccess ((State.reset.sp - 2).setWidth 17) ∧
      ∃ t, exec (.call 0x0100) State.reset = .next t ∧
        ∃ t' : State, t' ≠ t ∧ t'.sp = t.sp ∧ t'.mem = t.mem ∧ t'.cfg = t.cfg :=
  ⟨by decide, by unfold State.PortAccess; decide, _, rfl,
    { State.reset with sp := 0xFFFC, mem := [(0xFFFC, 3)], r1 := 7 }, by decide, by decide, by decide, rfl⟩

/-- CallPushesTheReturnAddress: CF-9, and the lowest array word. Out of range is CF-8 above. -/
theorem witness_CallPushesTheReturnAddress :
    execTo (.call 0x0100) { State.reset with pc := 8, sp := 0 } (fun t => t.output == [0x0B] && t.pc == 0x0100) = true ∧
      execTo (.call 0x0100) { State.reset with pc := 8, sp := 2 } (fun t => t.mem.read 0 == 0x0B && t.pc == 0x0100) = true := by
  decide

/-- RetPopsIntoThePc: CF-10, end of input, and the wait. Out of range is CF-11 above. -/
theorem witness_RetPopsIntoThePc :
    execTo .ret { State.reset with pc := 0x10, input := [5] } (fun t => t.pc == 5 && t.sp == 0 && t.consumed == [5]) = true ∧
      execTo .ret { State.reset with pc := 0x10, inputEnded := true } (fun t => t.pc == 0 && t.sp == 0) = true ∧
      execTo .ret { State.reset with pc := 0x10 } (fun t => t.pc == 0x10 && t.inputWaiting) = true := by decide

/-- DivInstructions: both clauses of each form; the fault of the register form is DIV-5 above. -/
theorem witness_DivInstructions :
    ({ State.reset with r2 := 2 } : State).src 3 .r2 ≠ 0x0000 ∧ State.reset.src 3 .r2 = 0x0000 ∧
      execTo (.divImm .r1 0) { State.reset with r1 := 9 } (fun t => t.r1 == 9 && t.pc == 4 && faulted t .divisionByZero 0 9 true) =
        true := by decide

/-- WritesToPcJump: a quotient, a zero divisor, and a bitwise operation on the next instruction's address. -/
theorem witness_WritesToPcJump :
    execTo (.divReg .pc .r1) { State.reset with pc := 0x0011, r1 := 4 } (fun t => t.pc == 0x0005) = true ∧
      execTo (.divImm .pc 0) { State.reset with pc := 0x0010 }
        (fun t => t.pc == 0x0014 && faulted t .divisionByZero 0x0010 0x0014 true) = true ∧
      execTo (.orImm .pc 0x0100) { State.reset with pc := 0x0010 } (fun t => t.pc == 0x0114) = true := by decide

/-- WritesToPcJump, the two reads: the word of the array, out of range, and the wait. -/
theorem witness_WritesToPcJump_reads :
    execTo (.load .pc .r2 0xFFFC) (withBytes State.reset 0xFFFC [0x40, 0x00]) (fun t => t.pc == 0x0040) = true ∧
      execTo (.load .pc .r2 0xFFFF) State.reset (fun t => t.pc == 5 && faulted t .addressOutOfRange 0 0xFFFF false) = true ∧
      execTo (.pop .pc) State.reset (fun t => t.pc == 0 && t.inputWaiting) = true := by decide

/-- JumpsAfterCompareMeanTheComparison, CMP_IMM: 95_test_vectors.md 1.2, row 0x0001, 0xFFFF: JG jumps and JA does not. -/
theorem witness_JumpsAfterCompareMeanTheComparison :
    execTo (.cmpImm .r1 0xFFFF) { State.reset with r1 := 1 } (fun t =>
      execTo (.jg 0x0040) t (fun u => u.pc == 0x0040) && execTo (.ja 0x0040) t (fun u => u.pc == 7)) = true := by decide

/-- StoredBytesAreFetched: the store of P6's kind, onto the next instruction. -/
theorem witness_StoredBytesAreFetched :
    (effAddr (State.reset.src 6 .r1) 6).toNat = (State.reset.nextPc 6).toNat ∧
      (effAddr (State.reset.src 6 .r1) 6).toNat ≤ 0xFFFE ∧ ¬ State.reset.PortAccess (effAddr (State.reset.src 6 .r1) 6) := by
  unfold State.PortAccess; decide

/-- LoaderPlacesTheImage, both clauses. -/
theorem witness_LoaderPlacesTheImage :
    (State.reset.applyReset.load []).2 = .failed ∧
      (State.reset.applyReset.load [0x00, 0x21]).1.mem = [(1, 0x21)] ∧ (State.reset.applyReset.load [0x00, 0x21]).2 = .loaded := by
  decide

/-- EntryPoint, both clauses, and an image of one byte under the header. -/
theorem witness_EntryPoint :
    State.reset.cfg.entryHeader = false ∧ ({ State.reset with cfg := headerConfig } : State).cfg.entryHeader = true ∧
      (State.boot { State.reset with cfg := headerConfig } [0x34]).pc = 0x0034 := by decide

/-- StepReportIsTheAddedFault: a step with a report, one with output and one with input. -/
theorem witness_StepReportIsTheAddedFault :
    stepsTo (placed 0 [0x00]) (fun t => stepReport (placed 0 [0x00]) t == some ⟨.unknownOpcode, 0, 0, false⟩) = true ∧
      stepsTo (placed 0 [0x21]) (fun t => stepReport (placed 0 [0x21]) t == none) = true ∧
      stepsTo { placed 0 [0x17, 0x41, 0x12] with sp := 0 } (fun t => t.output == [0x41]) = true := by decide

end Sys2Proof.Tests
end

section
/-! PROOF. The family 00_scope.md: injective maps, the comparisons that the flags of a sum and a difference stand for,
precise faults, the fixed configuration, and the instructions that write PC. -/

namespace Sys2Proof

/-! ### Injective opcode maps (00_scope.md R10, 30_encoding.md R121) -/

theorem Instr.wf_of_opcodeMap_wf {m : OpcodeMap} (h : m.wf = true) (i : Instr) : i.wf m = true := by
  rw [OpcodeMap.wf, List.all_eq_true] at h
  exact h i.mnemonic i.mnemonic.mem_all

/-- Settles O3: an injective map gives no two mnemonics one byte, and the reference map's 33 bytes differ. -/
theorem injectiveMapsEncodeEveryInstruction : Obligations.InjectiveMapsEncodeEveryInstruction :=
  ⟨by decide, fun _ i h => i.wf_of_opcodeMap_wf h⟩

end Sys2Proof

namespace Sys2Proof.Machine

/-! ### The ALU functions in arithmetic (42_alu.md R181 to R185) -/

theorem addOp_fst (a b : Word) : (addOp a b).1 = a + b := by
  simp [addOp, BitVec.setWidth_add]

theorem subOp_fst (a b : Word) : (subOp a b).1 = a - b := rfl

theorem setWidth_ofInt (z : Int) : (BitVec.ofInt 32 z).setWidth 16 = BitVec.ofInt 16 z := by
  apply BitVec.eq_of_toNat_eq
  simp only [BitVec.toNat_setWidth, BitVec.toNat_ofInt]
  omega

/-- The low word of the product is the same under both values of MUL_SIGNED (R183). -/
theorem mulOp_fst (signed : Bool) (a b : Word) : (mulOp signed a b).1 = a * b := by
  have hlow : (mulOp signed a b).1 = (product signed a b).setWidth 16 :=
    (BitVec.setWidth_eq_extractLsb' (by decide)).symm
  rw [hlow]
  cases signed with
  | false => simp [product, BitVec.ofNat_mul, BitVec.setWidth_mul]
  | true =>
    rw [product, if_pos rfl, setWidth_ofInt, BitVec.ofInt_mul, BitVec.ofInt_toInt, BitVec.ofInt_toInt]

theorem addOp_cf_iff (a b : Word) : (addOp a b).2.cf = true ↔ 0x10000 ≤ a.toNat + b.toNat := by
  have h : (addOp a b).2.cf = a.uaddOverflow b := (BitVec.uaddOverflow_eq a b).symm
  simp [h, BitVec.uaddOverflow]

theorem addOp_of_iff (a b : Word) :
    (addOp a b).2.of = true ↔ a.toInt + b.toInt < -32768 ∨ 32767 < a.toInt + b.toInt := by
  have h : (addOp a b).2.of = a.saddOverflow b := by
    rw [BitVec.saddOverflow_eq, ← addOp_fst]
    rfl
  rw [h, BitVec.saddOverflow, Bool.or_eq_true, decide_eq_true_iff, decide_eq_true_iff]
  omega

theorem subOp_cf_iff (a b : Word) : (subOp a b).2.cf = true ↔ a.toNat < b.toNat := by
  simp [subOp, resultFlags]

theorem subOp_of_iff (a b : Word) :
    (subOp a b).2.of = true ↔ a.toInt - b.toInt < -32768 ∨ 32767 < a.toInt - b.toInt := by
  have h : (subOp a b).2.of = a.ssubOverflow b := by
    rw [BitVec.ssubOverflow_eq]
    simp only [subOp, resultFlags]
    cases a.msb <;> cases b.msb <;> cases (a - b).msb <;> rfl
  rw [h, BitVec.ssubOverflow, Bool.or_eq_true, decide_eq_true_iff, decide_eq_true_iff]
  omega

theorem subOp_zf_iff (a b : Word) : (subOp a b).2.zf = true ↔ a = b :=
  beq_iff_eq.trans sub_eq_zero

/-- SF agrees with OF after a subtraction exactly when the first operand is not the smaller one, signed. -/
theorem subOp_sf_eq_of_iff (a b : Word) : (subOp a b).2.sf = (subOp a b).2.of ↔ b.toInt ≤ a.toInt := by
  have hs : (subOp a b).2.sf = true ↔ (a.toInt - b.toInt).bmod (2 ^ 16) < 0 := by
    rw [← BitVec.toInt_sub]
    simp [subOp, resultFlags, BitVec.msb_eq_toInt]
  rw [Bool.eq_iff_iff, hs, subOp_of_iff, Int.bmod_def]
  have := a.toInt_lt
  have := a.le_toInt
  have := b.toInt_lt
  have := b.le_toInt
  omega

theorem subOp_equal (a b : Word) : (subOp a b).2.equal = decide (a = b) :=
  Bool.eq_iff_iff.2 ((subOp_zf_iff a b).trans decide_eq_true_iff.symm)

theorem subOp_greaterEqual (a b : Word) : (subOp a b).2.greaterEqual = decide (b.toInt ≤ a.toInt) :=
  Bool.eq_iff_iff.2 (beq_iff_eq.trans ((subOp_sf_eq_of_iff a b).trans decide_eq_true_iff.symm))

theorem subOp_aboveEqual (a b : Word) : (subOp a b).2.aboveEqual = decide (b.toNat ≤ a.toNat) := by
  simp [Flags.aboveEqual, subOp, resultFlags, ← decide_not]

/-- JG's condition is JGE's without equality. -/
theorem subOp_greater (a b : Word) : (subOp a b).2.greater = decide (b.toInt < a.toInt) := by
  have h : (subOp a b).2.greater = (!(subOp a b).2.equal && (subOp a b).2.greaterEqual) := rfl
  rw [h, subOp_equal, subOp_greaterEqual, Bool.eq_iff_iff]
  simp only [Bool.and_eq_true, Bool.not_eq_true', decide_eq_false_iff_not, decide_eq_true_iff, ← BitVec.toInt_inj]
  omega

/-- JA's condition is JAE's without equality. -/
theorem subOp_above (a b : Word) : (subOp a b).2.above = decide (b.toNat < a.toNat) := by
  have h : (subOp a b).2.above = ((subOp a b).2.aboveEqual && !(subOp a b).2.equal) := rfl
  rw [h, subOp_equal, subOp_aboveEqual, Bool.eq_iff_iff]
  simp only [Bool.and_eq_true, Bool.not_eq_true', decide_eq_false_iff_not, decide_eq_true_iff, ← BitVec.toNat_inj]
  omega

/-! ### Jumps on the flags of a difference (44_control.md R250) -/

theorem State.jumpIf_pc (s : State) (c : Bool) (target : Word) :
    (s.jumpIf c target).pc = if c then target else s.nextPc 3 := by
  simp [State.jumpIf_eq]

/-- Where the flags are those of `a - b`, each conditional jump is taken on its comparison of `a` with `b`. -/
theorem jumpsCompare_of_flags {t : State} {a b : Word} (target : Word) (hf : t.flags = (subOp a b).2) :
    JumpsCompare t target a b := by
  refine ⟨⟨_, rfl, ?_⟩, ⟨_, rfl, ?_⟩, ⟨_, rfl, ?_⟩, ⟨_, rfl, ?_⟩, ⟨_, rfl, ?_⟩⟩ <;> rw [State.jumpIf_pc, hf]
  · simp [subOp_equal]
  · simp [subOp_greater]
  · simp [subOp_greaterEqual]
  · simp [subOp_above]
  · simp [subOp_aboveEqual]

/-- Settles O48: a comparison leaves the flags of the difference, and those decide each conditional jump. -/
theorem jumpsAfterCompareMeanTheComparison : Obligations.JumpsAfterCompareMeanTheComparison := by
  refine ⟨fun d r target s => ⟨_, rfl, jumpsCompare_of_flags target ?_⟩,
    fun d imm target s => ⟨_, rfl, jumpsCompare_of_flags target ?_⟩⟩
  · simp [State.advance_reg_eq_src]
  · simp [State.advance_reg_eq_src]

/-! ### What a two-operand ALU instruction leaves (42_alu.md R180) -/

theorem State.aluReg_eq (s : State) (op : Word → Word → Word × Flags) (d r : Reg) :
    s.aluReg op d r = (s.advance 3).writeAlu d (op (s.src 3 d) (s.src 3 r)) := by
  simp only [State.aluReg, State.advance_reg_eq_src]

theorem State.aluImm_eq (s : State) (op : Word → Word → Word × Flags) (d : Reg) (imm : Word) :
    s.aluImm op d imm = (s.advance 4).writeAlu d (op (s.src 4 d) imm) := by
  simp only [State.aluImm, State.advance_reg_eq_src]

theorem State.aluOne_eq (s : State) (op : Word → Flags → Word × Flags) (r : Reg) :
    s.aluOne op r = (s.advance 2).writeAlu r (op (s.src 2 r) s.flags) := by
  simp only [State.aluOne, State.advance_reg_eq_src, State.advance_flags]

/-- PC as an operand is the next instruction's address (R119). -/
@[simp] theorem State.src_pc (s : State) (len : Nat) : s.src len .pc = s.nextPc len := rfl

theorem State.src_of_ne_pc (s : State) (len : Nat) {q : Reg} (h : q ≠ .pc) : s.src len q = s.reg q := if_neg h

/-- Settles O34: the subtraction takes off again what the 16-bit sum put on, and the flags are those of R181 and R182. -/
theorem addThenSubtractIsTheIdentity : Obligations.AddThenSubtractIsTheIdentity := by
  intro d r s hdr hd hr
  refine ⟨s.aluReg addOp d r, (s.aluReg addOp d r).aluReg subOp d r, rfl, rfl, ?_⟩
  have htd : (s.aluReg addOp d r).reg d = s.reg d + s.reg r := by
    simp [State.aluReg_eq, addOp_fst, State.src_of_ne_pc, hd, hr]
  have htr : (s.aluReg addOp d r).reg r = s.reg r := by
    simp [State.aluReg_eq, State.advance_reg, hr, hdr.symm]
  have htf : (s.aluReg addOp d r).flags = (addOp (s.reg d) (s.reg r)).2 := by
    simp [State.aluReg_eq, State.src_of_ne_pc, hd, hr]
  generalize s.aluReg addOp d r = t at htd htr htf ⊢
  have hud : (t.aluReg subOp d r).reg d = t.reg d - t.reg r := by
    simp [State.aluReg_eq, subOp_fst, State.src_of_ne_pc, hd, hr]
  have huf : (t.aluReg subOp d r).flags = (subOp (t.reg d) (t.reg r)).2 := by
    simp [State.aluReg_eq, State.src_of_ne_pc, hd, hr]
  refine ⟨?_, ?_, ?_, ?_, ?_⟩
  · rw [hud, htd, htr, add_sub_cancel_right]
  · rw [htf, addOp_of_iff]
  · rw [htf, addOp_cf_iff]
  · rw [huf, htr, subOp_of_iff]
  · rw [huf, htr, subOp_cf_iff]

/-! ### Faults and completions in the history (60_exceptions.md R288, R290) -/

/-- An instruction that completes reports no fault: what it adds to the history is a byte taken or emitted. -/
theorem Completed.not_reported {i : Instr} {s t : State} (hc : Completed i s t) (r : Report) :
    t.history ≠ s.history ++ [.reported r] := by
  rcases hc.outside with ⟨_, _, hist, _⟩ | ⟨b, _, _, hist, _⟩ | ⟨_, _, _, _, _, _, hist, _⟩ | ⟨_, _, answer, _⟩
  · simp [hist]
  · simp [hist]
  · simp [hist]
  · obtain ⟨_, _, ⟨b, rest, _, _, _, hist⟩ | ⟨_, _, _, _, hist⟩⟩ := answer <;> simp [hist]

/-- The one report a faulting step adds. -/
theorem Faults.report_eq {s t : State} {fatal : Bool} {kind : FaultKind} {len : Nat} {info : BitVec 17}
    (hf : Faults s t fatal kind len info) {r : Report} (h : t.history = s.history ++ [.reported r]) :
    r = ⟨kind, s.pc, info, fatal || s.cfg.strictLocalFaults⟩ := by
  obtain ⟨hist, _⟩ := hf
  simpa using h.symm.trans hist

/-- Settles O16: of what a step can do, only a fault adds a report, and a fault does nothing else. -/
theorem faultsArePrecise : Obligations.FaultsArePrecise := by
  intro s t r hs hr
  rcases step_effect hs with ⟨_, rfl⟩ | ⟨_, i, _, hc⟩ | ⟨he, fatal, kind, len, info, hf, _, _⟩ | ⟨rfl, _, _, _⟩
  · simp at hr
  · exact absurd hr (hc.not_reported r)
  · obtain rfl := hf.report_eq hr
    obtain ⟨_, engine, ⟨_, regs⟩, rest⟩ := hf
    refine ⟨rfl, ?_, regs, rest⟩
    rw [engine, he]
    cases fatal || s.cfg.strictLocalFaults <;> simp
  · simp at hr

theorem Faults.cfg_eq {s t : State} {fatal : Bool} {kind : FaultKind} {len : Nat} {info : BitVec 17}
    (hf : Faults s t fatal kind len info) : t.cfg = s.cfg := by
  obtain ⟨_, _, _, _, _, _, _, hcfg⟩ := hf
  exact hcfg

/-- Settles O18: by cases on what a step can do. -/
theorem stepsNeverWriteTheConfiguration : Obligations.StepsNeverWriteTheConfiguration := by
  intro s t hs
  rcases step_effect hs with ⟨_, rfl⟩ | ⟨_, i, _, hc⟩ | ⟨_, _, _, _, _, hf, _, _⟩ | ⟨rfl, _, _, _⟩
  · rfl
  · exact hc.cfg
  · exact hf.cfg_eq
  · rfl

/-! ### PC as the destination (44_control.md R261) -/

theorem State.aluReg_to_pc (s : State) (op : Word → Word → Word × Flags) (r : Reg) :
    (s.aluReg op .pc r).pc = (op (s.nextPc 3) (s.src 3 r)).1 := by
  simp [State.aluReg_eq]

theorem State.aluImm_to_pc (s : State) (op : Word → Word → Word × Flags) (imm : Word) :
    (s.aluImm op .pc imm).pc = (op (s.nextPc 4) imm).1 := by
  simp [State.aluImm_eq]

theorem State.aluOne_to_pc (s : State) (op : Word → Flags → Word × Flags) :
    (s.aluOne op .pc).pc = (op (s.nextPc 2) s.flags).1 := by
  simp [State.aluOne_eq]

theorem State.divide_to_pc (s : State) (len : Nat) (b : Word) :
    DividesPc s (s.divide (s.advance len) .pc b) len b := by
  have hpc : (s.advance len).reg .pc = s.nextPc len := rfl
  rcases s.divide_cases (s.advance len) .pc b with ⟨hb, h⟩ | ⟨hb, q, hq, h⟩ <;> rw [h, DividesPc]
  · rw [if_pos hb, hpc]
    exact s.raiseFatal_faults _ _ _
  · rw [if_neg hb]
    exact ⟨q, hpc ▸ hq, by simp⟩

/-! ### Instructions that read a word (41_load_store.md R160, 43_stack.md R231) -/

/-- From `s` to `t` nothing but registers changes. -/
structure OnlyRegs (s t : State) : Prop where
  flags : t.flags = s.flags
  mem : t.mem = s.mem
  input : SameInput s t
  history : t.history = s.history
  control : SameControl s t

theorem OnlyRegs.setReg {s t : State} (h : OnlyRegs s t) (d : Reg) (v : Word) : OnlyRegs s (t.setReg d v) := by
  obtain ⟨hf, hm, hi, hh, hc⟩ := h
  exact ⟨by simpa using hf, by simpa using hm, by simpa [SameInput] using hi, by simpa using hh,
    by simpa [SameControl] using hc⟩

theorem OnlyRegs.refl (s : State) : OnlyRegs s s :=
  ⟨rfl, rfl, ⟨rfl, rfl, rfl⟩, rfl, rfl, rfl, rfl⟩

/-- A completed read writes no register. -/
theorem ReadDone.reg_eq {s t : State} {ea : EffAddr} {v : Word} (h : ReadDone s t ea v) (q : Reg) :
    t.reg q = s.reg q := by
  rw [h.frame]
  cases q <;> rfl

/-- A completed read changes neither flags, memory nor control. -/
theorem ReadDone.keeps {s t : State} {ea : EffAddr} {v : Word} (h : ReadDone s t ea v) :
    t.flags = s.flags ∧ t.mem = s.mem ∧ SameControl s t := by
  rw [h.frame]
  exact ⟨rfl, rfl, rfl, rfl, rfl⟩

/-- An instruction of `len` bytes that reads a word at `ea` and then writes registers only (`f` those of the access
itself, `k` those of the instruction) leaves what `DataRead` says. -/
theorem Access.finish_dataRead {s : State} {len : Nat} {ea : EffAddr} {acc : Access Word} {f : State → State}
    {k : Word → State → State} {regs : State → Word → Prop}
    (hacc : (0xFFFE < ea.toNat ∧ acc = .outOfRange ea) ∨
      (ea.toNat ≤ 0xFFFE ∧ s.PortAccess ea ∧ s.input = [] ∧ s.inputEnded = false ∧ acc = .waits) ∨
      ∃ v u, acc = .done v (f u) ∧ ReadDone (s.advance len) u ea v)
    (honly : ∀ v u, OnlyRegs u (k v (f u)))
    (hregs : ∀ v u, (∀ q, u.reg q = s.src len q) → regs (k v (f u)) v) :
    ∃ t, acc.finish s (s.advance len) k = .next t ∧ DataRead s t len ea (regs t) := by
  rcases hacc with ⟨hb, rfl⟩ | ⟨hb, hp, hi, he, rfl⟩ | ⟨v, u, rfl, hd⟩ <;>
    refine ⟨_, rfl, ?_⟩ <;> unfold DataRead
  · rw [if_pos hb]
    exact s.raiseLocal_faults _ _ _
  · rw [if_neg (by omega)]
    exact .inl ⟨hp, hi, he, rfl⟩
  · obtain ⟨hf, hm, ⟨hin, hend, hwait⟩, hh, hhalt, heng, hcfg⟩ := honly v u
    have hreg := hregs v u fun q => (hd.reg_eq q).trans (s.advance_reg_eq_src len q)
    obtain ⟨hflags, hmem, hhalted, hengine, hconfig⟩ := hd.keeps
    obtain ⟨hle, _, hv⟩ := hd
    rw [if_neg (by omega)]
    refine .inr ⟨v, hreg, hf.trans hflags, fun a => by rw [hm, hmem]; rfl,
      ⟨hhalt.trans hhalted, heng.trans hengine, hcfg.trans hconfig⟩, ?_⟩
    rcases hv with ⟨hp, hw, hn, ha⟩ | ⟨hp, hw, rfl⟩
    · refine .inl ⟨hp, hwait.trans hw, hend.trans hn, ?_⟩
      rw [hin, hh]
      exact ha
    · exact .inr ⟨hp, hw, ⟨hin, hend, hwait⟩, hh⟩

/-- LOAD, with its registers: the destination takes the word read. -/
theorem execLoad_dataRead (d b : Reg) (off : Word) (s : State) :
    ∃ t, exec (.load d b off) s = .next t ∧
      DataRead s t 5 (effAddr (s.src 5 b) off) fun v => WritesReg s t 5 d v := by
  refine Access.finish_dataRead (f := id) ?_ (fun v u => (OnlyRegs.refl u).setReg d v)
    fun v u hu => ⟨?_, fun hd => ?_, fun q hq => ?_⟩
  · rw [State.advance_reg_eq_src]
    exact (s.advance 5).memRead_cases _
  · simp
  · rw [← State.reg_pc, State.setReg_reg, if_neg hd.symm]
    exact hu .pc
  · simp only [List.mem_cons, List.not_mem_nil, or_false, not_or] at hq
    rw [State.setReg_reg, if_neg hq.1]
    exact (hu q).trans (s.src_of_ne_pc 5 hq.2)

/-- POP, with its registers: SP two higher, and then the destination takes the word read. -/
theorem execPop_dataRead (d : Reg) (s : State) :
    ∃ t, exec (.pop d) s = .next t ∧
      DataRead s t 2 (s.sp.setWidth 17) fun v =>
        t.reg d = v ∧ (d ≠ .sp → t.sp = s.sp + 2) ∧ (d ≠ .pc → t.pc = s.nextPc 2) ∧ SameRegs [d, .sp, .pc] s t := by
  refine Access.finish_dataRead (f := fun u => u.setReg .sp (s.sp + 2)) ?_
    (fun v u => ((OnlyRegs.refl u).setReg .sp _).setReg d v)
    fun v u hu => ⟨?_, fun hd => ?_, fun hd => ?_, fun q hq => ?_⟩
  · rw [toNat_setWidth_17]
    exact (s.advance 2).pop_cases
  · simp
  · simp [hd]
  · simpa [hd, State.reg_pc] using hu .pc
  · simp only [List.mem_cons, List.not_mem_nil, or_false, not_or] at hq
    obtain ⟨hqd, hqs, hqp⟩ := hq
    rw [State.setReg_reg, if_neg hqd, State.setReg_reg, if_neg hqs]
    exact (hu q).trans (s.src_of_ne_pc 2 hqp)

/-- Settles O53: each instruction's write lands in PC after PC was moved past the instruction. -/
theorem writesToPcJump : Obligations.WritesToPcJump := by
  refine ⟨fun r s => ⟨⟨_, rfl, ?_⟩, ⟨_, rfl, ?_⟩, ⟨_, rfl, ?_⟩, ⟨_, rfl, ?_⟩, ⟨_, rfl, ?_⟩, ⟨_, rfl, ?_⟩, ⟨_, rfl, ?_⟩⟩,
    fun imm s => ⟨⟨_, rfl, ?_⟩, ⟨_, rfl, ?_⟩, ⟨_, rfl, ?_⟩, ⟨_, rfl, ?_⟩, ⟨_, rfl, ?_⟩, ⟨_, rfl, ?_⟩, ⟨_, rfl, ?_⟩⟩,
    fun b off s => ⟨⟨_, rfl, ?_⟩, ⟨_, rfl, ?_⟩, ?_, ?_⟩⟩
  · simp [State.advance_reg_eq_src]
  · rw [State.aluReg_to_pc, addOp_fst]
  · rw [State.aluReg_to_pc, subOp_fst]
  · rw [State.aluReg_to_pc, mulOp_fst]
  · rw [State.advance_reg_eq_src]
    exact s.divide_to_pc 3 _
  · rw [State.aluReg_to_pc]; rfl
  · rw [State.aluReg_to_pc]; rfl
  · simp
  · rw [State.aluImm_to_pc, addOp_fst]
  · rw [State.aluImm_to_pc, subOp_fst]
  · rw [State.aluImm_to_pc, mulOp_fst]
  · exact s.divide_to_pc 4 imm
  · rw [State.aluImm_to_pc]; rfl
  · rw [State.aluImm_to_pc]; rfl
  · rw [State.aluOne_to_pc]; rfl
  · rw [State.aluOne_to_pc]; rfl
  · obtain ⟨t, h, hread⟩ := execLoad_dataRead .pc b off s
    exact ⟨t, h, hread.imp fun _ ⟨hv, _⟩ => hv⟩
  · obtain ⟨t, h, hread⟩ := execPop_dataRead .pc s
    exact ⟨t, h, hread.imp fun _ ⟨hv, _⟩ => hv⟩

end Sys2Proof.Machine
end

section
/-! PROOF. The family 10_state.md: the invariant at reset and over every step, canonical memories, the halted flag and
Faulted, the frames of flags and registers, the input stream, the views of the history and the inspector. -/

namespace Sys2Proof.Machine

/-! ### What a step that completes leaves of the invariant (10_state.md R43, R44) -/

/-- The only store of an instruction is a word in bounds, so memory stays canonical. -/
theorem Completed.mem_wf {i : Instr} {s t : State} (hc : Completed i s t) (hm : Memory.wf s.mem) :
    Memory.wf t.mem := by
  rcases hc.outside with ⟨mem⟩ | ⟨_, mem⟩ | ⟨ea, v, inRange, _, mem⟩ | ⟨_, mem⟩ <;> rw [mem]
  · exact hm
  · exact hm
  · exact Memory.wf_storeWord hm inRange v
  · exact hm

/-- A completed instruction leaves the history, or adds a byte emitted or a byte taken. -/
theorem Completed.history_cases {i : Instr} {s t : State} (hc : Completed i s t) :
    t.history = s.history ∨ (∃ b, t.history = s.history ++ [.emitted b]) ∨
      ∃ b, t.history = s.history ++ [.consumed b] := by
  rcases hc.outside with ⟨_, _, hist⟩ | ⟨b, _, _, hist⟩ | ⟨_, _, _, _, _, _, hist⟩ | ⟨_, _, ⟨_, _, answer⟩⟩
  · exact .inl hist
  · exact .inr (.inl ⟨b, hist⟩)
  · exact .inl hist
  · rcases answer with ⟨b, _, _, _, _, hist⟩ | ⟨_, _, _, _, hist⟩
    · exact .inr (.inr ⟨b, hist⟩)
    · exact .inl hist

theorem Completed.reported_mem_iff {i : Instr} {s t : State} (hc : Completed i s t) (r : Report) :
    .reported r ∈ t.history ↔ .reported r ∈ s.history := by
  rcases hc.history_cases with hist | ⟨b, hist⟩ | ⟨b, hist⟩ <;> simp [hist]

/-- An instruction that completes is not waiting any more: only a port read waits, and this one was answered. -/
theorem Completed.inputWaiting_eq_false {i : Instr} {s t : State} (hc : Completed i s t)
    (hw : s.inputWaiting = true → ReadsPort i s) : t.inputWaiting = false := by
  have hnoPort (hi : SameInput s t) (hp : ¬ ReadsPort i s) : t.inputWaiting = false := by
    obtain ⟨_, _, wait⟩ := hi
    rw [wait]
    exact Bool.eq_false_iff.2 (mt hw hp)
  rcases hc.outside with ⟨_, hi, _, hp⟩ | ⟨_, _, hi, _, hp⟩ | ⟨_, _, _, _, _, hi, _, hp⟩ | ⟨_, _, ⟨wait, _⟩, _⟩
  · exact hnoPort hi hp
  · exact hnoPort hi hp
  · exact hnoPort hi hp
  · exact wait

/-! ### The invariant over a step -/

theorem Completed.inv {i : Instr} {s t : State} (hc : Completed i s t) (hs : s.Inv) (he : s.engine = .running)
    (hd : s.fetchDecode = .instr i) : t.Inv where
  memory := hc.mem_wf hs.memory
  halted := by
    rcases hc.control with ⟨_, hh, hg⟩ | ⟨hh, hg⟩
    · simp [hh, hg]
    · rw [hh, hg]
      exact hs.halted
  faulted := by
    have hg : t.engine = .faulted ↔ s.engine = .faulted := by
      rcases hc.control with ⟨_, _, hg⟩ | ⟨_, hg⟩ <;> simp [hg, he]
    simp only [hg, hs.faulted, hc.reported_mem_iff]
  waiting := by
    simp [hc.inputWaiting_eq_false fun hw => (State.atPortRead_iff he hd).1 (hs.waiting hw)]

theorem Faults.inv {s t : State} {fatal : Bool} {kind : FaultKind} {len : Nat} {info : BitVec 17}
    (hf : Faults s t fatal kind len info) (hs : s.Inv) (he : s.engine = .running) (hm : t.mem = s.mem)
    (hp : ¬ s.AtPortRead) : t.Inv := by
  obtain ⟨hist, engine, _, _, _, ⟨_, _, wait⟩, hhalt, _⟩ := hf
  have hnot : s.halted ≠ true := by
    simp [hs.halted, he]
  have hold : ¬ ∃ r, Event.reported r ∈ s.history ∧ r.faulted = true := by
    simp [← hs.faulted, he]
  have hreport : (∃ r, Event.reported r ∈ t.history ∧ r.faulted = true) ↔
      (fatal || s.cfg.strictLocalFaults) = true := by
    simp only [hist, List.mem_append, or_and_right, exists_or, hold, false_or]
    simp
  rw [he] at engine
  refine ⟨hm ▸ hs.memory, ?_, ?_, fun hw => absurd (hs.waiting (wait ▸ hw)) hp⟩
  · rw [hhalt, engine]
    cases fatal || s.cfg.strictLocalFaults <;> simp [hnot]
  · rw [hreport, engine]
    cases fatal || s.cfg.strictLocalFaults <;> simp

theorem State.hold_inv {s : State} (hs : s.Inv) (hp : s.AtPortRead) : s.hold.Inv :=
  ⟨hs.memory, hs.halted, hs.faulted, fun _ => hp⟩

/-- Settles O12: each thing a step can do keeps the invariant. -/
theorem everyStepKeepsTheInvariant : Obligations.EveryStepKeepsTheInvariant := by
  intro s t hs h
  rcases step_effect h with ⟨_, rfl⟩ | ⟨he, i, hd, hc⟩ | ⟨he, _, _, _, _, hf, hm, hp⟩ | ⟨rfl, _, _, hp⟩
  · exact hs
  · exact hc.inv hs he hd
  · exact hf.inv hs he hm hp
  · exact State.hold_inv hs hp

/-! ### The invariant at the start of a run (70_reset_and_hazards.md R310, R314) -/

/-- A run that has not begun: Running, nothing in the history, no wait, memory canonical. -/
structure State.Unstarted (s : State) : Prop where
  memory : Memory.wf s.mem
  halted : s.halted = false
  engine : s.engine = .running
  history : s.history = []
  waiting : s.inputWaiting = false

theorem State.Unstarted.inv {s : State} (h : s.Unstarted) : s.Inv where
  memory := h.memory
  halted := by simp [h.halted, h.engine]
  faulted := by simp [h.engine, h.history]
  waiting := by simp [h.waiting]

theorem State.reset_unstarted : State.reset.Unstarted :=
  ⟨State.reset_mem_wf, rfl, rfl, rfl, rfl⟩

theorem State.applyReset_unstarted (s : State) : s.applyReset.Unstarted :=
  ⟨State.reset_mem_wf, rfl, rfl, rfl, rfl⟩

theorem State.Unstarted.setMem {s : State} (h : s.Unstarted) {m : Memory} (hm : Memory.wf m) :
    (s.setMem m).Unstarted :=
  ⟨hm, h.halted, h.engine, h.history, h.waiting⟩

theorem State.Unstarted.setReg {s : State} (h : s.Unstarted) (d : Reg) (v : Word) : (s.setReg d v).Unstarted := by
  obtain ⟨hm, hh, he, hl, hw⟩ := h
  exact ⟨by simpa using hm, by simpa using hh, by simpa using he, by simpa using hl, by simpa using hw⟩

theorem State.Unstarted.load {s : State} (h : s.Unstarted) (image : List Byte) : (s.load image).1.Unstarted := by
  have hm := State.load_mem_wf h.memory image
  unfold State.load at hm ⊢
  split
  · exact h
  next hne =>
    rw [if_neg hne] at hm
    exact h.setMem hm

theorem State.Unstarted.enter {s : State} (h : s.Unstarted) : s.enter.Unstarted := by
  unfold State.enter
  split
  · exact h.setReg _ _
  · exact h

/-- Settles O11: reset leaves a run that has not begun, and neither the loader nor the entry header begins it. -/
theorem resetMeetsTheInvariant : Obligations.ResetMeetsTheInvariant :=
  ⟨State.reset_unstarted.inv, fun s image =>
    ⟨s.applyReset_unstarted.inv, (s.applyReset_unstarted.load image).enter.inv⟩⟩

/-! ### Canonical memories (10_state.md R44) -/

/-- A byte that is not 0x00 is listed. -/
theorem Memory.mem_of_read_ne_zero {m : Memory} {a : Nat} (h : Memory.read m a ≠ 0) : (a, Memory.read m a) ∈ m := by
  induction m with
  | nil => exact absurd (Memory.read_nil a) h
  | cons c m ih =>
    obtain ⟨k, v⟩ := c
    rw [Memory.read_cons] at h ⊢
    split
    next hk => simp [hk]
    next hk =>
      rw [if_neg hk] at h
      exact List.mem_cons_of_mem _ (ih h)

/-- With strictly rising addresses, a listed byte is what its address reads. -/
theorem Memory.read_of_mem {m : Memory} (hs : m.Pairwise fun c d => c.1 < d.1) {a : Nat} {b : Byte}
    (h : (a, b) ∈ m) : Memory.read m a = b := by
  induction m with
  | nil => cases h
  | cons c m ih =>
    obtain ⟨k, v⟩ := c
    obtain ⟨hk, hs⟩ := List.pairwise_cons.1 hs
    rw [Memory.read_cons]
    rcases List.mem_cons.1 h with heq | h
    · obtain ⟨rfl, rfl⟩ := Prod.mk.inj heq
      exact if_pos rfl
    · rw [if_neg (hk _ h).ne]
      exact ih hs h

/-- The cells of a canonical memory are its nonzero bytes. -/
theorem Memory.mem_iff_read {m : Memory} (hm : Memory.wf m) (c : Host.Cell) :
    c ∈ m ↔ c.2 ≠ 0 ∧ Memory.read m c.1 = c.2 := by
  obtain ⟨hs, hc⟩ := hm
  constructor
  · intro h
    exact ⟨(hc c h).2, Memory.read_of_mem hs h⟩
  · rintro ⟨hne, hr⟩
    have h := Memory.mem_of_read_ne_zero (hr.symm ▸ hne)
    rwa [hr] at h

/-- Settles O14: the bytes decide which cells are listed, and rising addresses decide their order. -/
theorem canonicalMemoriesAreDecidedByTheirBytes : Obligations.CanonicalMemoriesAreDecidedByTheirBytes := by
  intro m n hm hn h
  have hirrefl : Std.Irrefl fun c d : Host.Cell => c.1 < d.1 := ⟨fun c => lt_irrefl c.1⟩
  have hantisymm : Std.Antisymm fun c d : Host.Cell => c.1 < d.1 := ⟨fun _ _ hcd hdc => absurd hdc hcd.asymm⟩
  have hcells (c : Host.Cell) : c ∈ m ↔ c ∈ n := by
    rw [Memory.mem_iff_read hm, Memory.mem_iff_read hn, h]
  obtain ⟨hmSorted, _⟩ := hm
  obtain ⟨hnSorted, _⟩ := hn
  exact hmSorted.eq_of_mem_iff hnSorted hcells

/-! ### Halted and Faulted (10_state.md R42, R43) -/

/-- A step request in Halted or Faulted does nothing (R118). -/
theorem step_eq_self_of_not_running {s t : State} (h : step s = .next t) (he : s.engine ≠ .running) : t = s := by
  rcases step_cases h with ⟨_, ht⟩ | ⟨hr, _⟩
  · exact ht
  · exact absurd hr he

/-- A step keeps the halted flag, or runs HLT and sets it. -/
theorem step_halted_cases {s t : State} (h : step s = .next t) :
    t.halted = s.halted ∨ (t.halted = true ∧ s.engine = .running ∧ s.fetchDecode = .instr .hlt) := by
  rcases step_effect h with ⟨_, rfl⟩ | ⟨he, i, hd, hc⟩ | ⟨_, _, _, _, _, hf, _, _⟩ | ⟨rfl, _, _, _⟩
  · exact .inl rfl
  · rcases hc.control with ⟨rfl, hh, _⟩ | ⟨hh, _⟩
    · exact .inr ⟨hh, he, hd⟩
    · exact .inl hh
  · obtain ⟨_, _, _, _, _, _, hh, _⟩ := hf
    exact .inl hh
  · exact .inl rfl

/-- Settles O15: the flag is kept or set by HLT; where it is set, the invariant says Halted, and there no step happens. -/
theorem onlyHltHalts : Obligations.OnlyHltHalts := by
  refine ⟨rfl, fun s t h => ⟨fun hs ht => ?_, fun hs => ?_, fun hinv hs => ?_⟩⟩
  · rcases step_halted_cases h with hh | ⟨_, hlt⟩
    · simp [hh, hs] at ht
    · exact hlt
  · rcases step_halted_cases h with hh | ⟨ht, _⟩
    · exact hh.trans hs
    · exact ht
  · exact step_eq_self_of_not_running h (by simp [hinv.halted.1 hs])

/-- A completed instruction does not enter Faulted. -/
theorem Completed.engine_ne_faulted {i : Instr} {s t : State} (hc : Completed i s t) (hs : s.engine ≠ .faulted) :
    t.engine ≠ .faulted := by
  rcases hc.control with ⟨_, _, he⟩ | ⟨_, he⟩ <;> simp [he, hs]

/-- A fault that leaves the engine Faulted says so in its report (R290). -/
theorem Faults.report_of_faulted {s t : State} {fatal : Bool} {kind : FaultKind} {len : Nat} {info : BitVec 17}
    (hf : Faults s t fatal kind len info) (hs : s.engine ≠ .faulted) (ht : t.engine = .faulted) :
    ∃ r, t.history = s.history ++ [.reported r] ∧ r.faulted = true := by
  obtain ⟨hist, engine, _⟩ := hf
  refine ⟨_, hist, ?_⟩
  by_contra hne
  rw [engine, if_neg hne] at ht
  exact hs ht

/-- Settles O17: of what a step can do, only a fault changes the engine to Faulted. -/
theorem faultedOnlyByAReport : Obligations.FaultedOnlyByAReport := by
  refine fun s t h => ⟨fun hs ht => ?_, fun hs => step_eq_self_of_not_running h (by simp [hs])⟩
  rcases step_effect h with ⟨_, rfl⟩ | ⟨_, i, _, hc⟩ | ⟨_, _, _, _, _, hf, _, _⟩ | ⟨rfl, _, _, _⟩
  · exact absurd ht hs
  · exact absurd ht (hc.engine_ne_faulted hs)
  · exact hf.report_of_faulted hs ht
  · exact absurd ht hs

/-! ### The frames of the flags and the registers (10_state.md R35 to R39) -/

/-- Settles O19: an instruction that completes writes the flags of its row of R39, and any other writes none. -/
theorem onlyAluInstructionsWriteFlags : Obligations.OnlyAluInstructionsWriteFlags := by
  intro i s t h
  rcases exec_effect h with hc | ⟨_, _, _, _, hf, _, _⟩ | ⟨rfl, _, _, _⟩
  · exact ⟨hc.carry, hc.flags⟩
  · obtain ⟨_, _, _, flags, _⟩ := hf
    exact ⟨fun _ => congrArg Flags.cf flags, fun _ _ => flags⟩
  · exact ⟨fun _ => rfl, fun _ _ => rfl⟩

/-- Settles O20: only an instruction that completes writes a register but PC, and then one it names, or SP. -/
theorem registersChangeOnlyWhenNamed : Obligations.RegistersChangeOnlyWhenNamed := by
  intro s t q h hq hne
  rcases step_effect h with ⟨_, rfl⟩ | ⟨_, i, hd, hc⟩ | ⟨_, _, _, _, _, hf, _, _⟩ | ⟨rfl, _, _, _⟩
  · exact absurd rfl hne
  · refine ⟨i, hd, ?_⟩
    by_contra hno
    obtain ⟨hdest, hsp⟩ := not_or.1 hno
    exact hne (hc.regs q hq hdest hsp)
  · obtain ⟨_, _, ⟨_, regs⟩, _⟩ := hf
    exact absurd (regs q (by simpa using hq)) hne
  · exact absurd (s.hold_reg q) hne

/-! ### The input stream (20_memory.md R86, R88) -/

/-- An instruction that completes keeps the input stream, or reads the port and takes its first byte. -/
theorem Completed.input_cases {i : Instr} {s t : State} (hc : Completed i s t) :
    t.input = s.input ∨
      ∃ b, ReadsPort i s ∧ s.input = b :: t.input ∧ t.history = s.history ++ [.consumed b] := by
  rcases hc.outside with ⟨_, ⟨hin, _⟩⟩ | ⟨_, _, ⟨hin, _⟩⟩ | ⟨_, _, _, _, _, ⟨hin, _⟩⟩ | ⟨_, _, ⟨_, _, answer⟩, port⟩
  · exact .inl hin
  · exact .inl hin
  · exact .inl hin
  · rcases answer with ⟨b, rest, hs, _, rfl, hist⟩ | ⟨hs, _, _, ht, _⟩
    · exact .inr ⟨b, port, hs, hist⟩
    · exact .inl (ht.trans hs.symm)

/-- Settles O22: of what a step can do, only a port read that the host answers takes a byte. -/
theorem inputIsTakenByteByByte : Obligations.InputIsTakenByteByByte := by
  intro s t h
  rcases step_effect h with ⟨_, rfl⟩ | ⟨he, i, hd, hc⟩ | ⟨_, _, _, _, _, hf, _, _⟩ | ⟨rfl, _, _, _⟩
  · exact ⟨rfl, .inl rfl⟩
  · refine ⟨hc.inputEnded, hc.input_cases.imp_right fun ⟨b, port, rest⟩ => ?_⟩
    exact ⟨b, (State.atPortRead_iff he hd).2 port, rest⟩
  · obtain ⟨_, _, _, _, _, ⟨hin, hend, _⟩, _⟩ := hf
    exact ⟨hend, .inl hin⟩
  · exact ⟨rfl, .inl rfl⟩

/-! ### The views of the history (10_state.md R45, 60_exceptions.md R290) -/

/-- A step adds at most one event to the history (R118, R287). -/
theorem step_history_cases {s t : State} (h : step s = .next t) :
    t.history = s.history ∨ ∃ e, t.history = s.history ++ [e] := by
  rcases step_effect h with ⟨_, rfl⟩ | ⟨_, i, _, hc⟩ | ⟨_, _, _, _, _, hf, _, _⟩ | ⟨rfl, _, _, _⟩
  · exact .inl rfl
  · rcases hc.history_cases with hist | ⟨b, hist⟩ | ⟨b, hist⟩
    · exact .inl hist
    · exact .inr ⟨_, hist⟩
    · exact .inr ⟨_, hist⟩
  · obtain ⟨hist, _⟩ := hf
    exact .inr ⟨_, hist⟩
  · exact .inl rfl

/-- The byte an event consumed. -/
def Event.consumedByte? : Event → Option Byte
  | .consumed b => some b
  | .emitted _ => none
  | .reported _ => none

/-- The byte an event emitted. -/
def Event.emittedByte? : Event → Option Byte
  | .consumed _ => none
  | .emitted b => some b
  | .reported _ => none

/-- The report an event is. -/
def Event.report? : Event → Option Report
  | .consumed _ => none
  | .emitted _ => none
  | .reported r => some r

theorem State.consumed_eq (s : State) : s.consumed = s.history.filterMap Event.consumedByte? := rfl

theorem State.output_eq (s : State) : s.output = s.history.filterMap Event.emittedByte? := rfl

theorem State.reports_eq (s : State) : s.reports = s.history.filterMap Event.report? := rfl

theorem Event.consumedByte?_eq_some_iff (e : Event) (b : Byte) : e.consumedByte? = some b ↔ e = .consumed b := by
  cases e <;> simp [Event.consumedByte?]

theorem Event.emittedByte?_eq_some_iff (e : Event) (b : Byte) : e.emittedByte? = some b ↔ e = .emitted b := by
  cases e <;> simp [Event.emittedByte?]

theorem Event.report?_eq_some_iff (e : Event) (r : Report) : e.report? = some r ↔ e = .reported r := by
  cases e <;> simp [Event.report?]

/-- A list that grew by at most one event shows one more `a` in a view exactly when the event is the one the view
shows as `a`. -/
theorem filterMap_grows_iff {α : Type} {view : Event → Option α} {mk : α → Event}
    (hview : ∀ e a, view e = some a ↔ e = mk a) {old new : List Event} (h : new = old ∨ ∃ e, new = old ++ [e]) (a : α) :
    new.filterMap view = old.filterMap view ++ [a] ↔ new = old ++ [mk a] := by
  rcases h with rfl | ⟨e, rfl⟩
  · simp
  · rw [List.filterMap_append, List.append_cancel_left_eq, List.append_cancel_left_eq, List.cons.injEq,
      ← hview]
    cases hv : view e <;> simp [hv]

/-- A step's report is the one by which the run's reports grew. -/
theorem stepReport_eq_some_iff {s t : State} (h : t.history = s.history ∨ ∃ e, t.history = s.history ++ [e])
    (r : Report) : stepReport s t = some r ↔ t.reports = s.reports ++ [r] := by
  rw [stepReport, State.reports_eq, State.reports_eq]
  rcases h with h | ⟨e, h⟩ <;> rw [h]
  · simp
  · rw [List.filterMap_append, List.drop_left, List.append_cancel_left_eq]
    cases hv : e.report? <;> simp [hv]

/-- Settles O58: each view of the history grows with the event it shows. -/
theorem stepReportIsTheAddedFault : Obligations.StepReportIsTheAddedFault := by
  intro s t h
  have hgrow := step_history_cases h
  refine ⟨fun r => ?_, fun b => ?_, fun b => ?_⟩
  · rw [stepReport_eq_some_iff hgrow, State.reports_eq, State.reports_eq]
    exact filterMap_grows_iff Event.report?_eq_some_iff hgrow r
  · rw [State.consumed_eq, State.consumed_eq]
    exact filterMap_grows_iff Event.consumedByte?_eq_some_iff hgrow b
  · rw [State.output_eq, State.output_eq]
    exact filterMap_grows_iff Event.emittedByte?_eq_some_iff hgrow b

/-! ### The inspector (10_state.md R48) -/

theorem Flags.pack_getLsbD (f : Flags) :
    f.pack.getLsbD 0 = f.cf ∧ f.pack.getLsbD 1 = f.zf ∧ f.pack.getLsbD 2 = f.sf ∧ f.pack.getLsbD 3 = f.of := by
  obtain ⟨cf, zf, sf, of⟩ := f
  revert cf zf sf of
  decide

/-- Settles O57: the packed bits are the flags, and the rest is read as it stands. -/
theorem inspectorPacksTheFlags : Obligations.InspectorPacksTheFlags := by
  intro s
  obtain ⟨hcf, hzf, hsf, hof⟩ := s.flags.pack_getLsbD
  exact ⟨hcf, hzf, hsf, hof, rfl, rfl⟩

end Sys2Proof.Machine
end

section
/-! PROOF. The family 20_memory.md: the effective address, the port range, the wait of a port read, the instructions that
read a word (LOAD, POP, RET) with their encodings and decode faults, and the fetch of what was just stored. -/

namespace Sys2Proof.Machine

/-! ### Effective addresses (20_memory.md R77) -/

/-- Settles O26: two 16-bit words sum to less than 2^17. -/
theorem effectiveAddressIsTheExactSum : Obligations.EffectiveAddressIsTheExactSum := by
  intro base off
  have hbase := base.isLt
  have hoff := off.isLt
  rw [effAddr, BitVec.toNat_add, toNat_setWidth_17, toNat_setWidth_17, Nat.mod_eq_of_lt (by omega)]

/-! ### The port range (20_memory.md R81, R92) -/

/-- A store outside the port range leaves every byte of that range. -/
theorem Memory.read_storeWord_of_port {s : State} {ea : EffAddr} (hle : ea.toNat ≤ 0xFFFE) (hp : ¬ s.PortAccess ea)
    (v : Word) {a : Nat} (ha : s.cfg.portBase.toNat ≤ a) : (s.mem.storeWord ea.toNat v).read a = s.mem.read a := by
  rw [s.portAccess_iff hle] at hp
  rw [Memory.read_storeWord, if_neg (by omega), if_neg (by omega)]

/-- Settles O21: of what a step can do, only a store outside the port range writes memory. -/
theorem portRangeBytesAreNeverWritten : Obligations.PortRangeBytesAreNeverWritten := by
  intro s t a h ha _
  rcases step_effect h with ⟨_, rfl⟩ | ⟨_, i, _, hc⟩ | ⟨_, _, _, _, _, _, mem, _⟩ | ⟨rfl, _, _, _⟩
  · rfl
  · rcases hc.outside with ⟨mem⟩ | ⟨_, mem⟩ | ⟨ea, v, inRange, array, mem⟩ | ⟨_, mem⟩ <;> rw [mem]
    exact Memory.read_storeWord_of_port inRange array v ha
  · rw [mem]
  · rfl

/-! ### The wait of a port read (20_memory.md R86, 70_reset_and_hazards.md R317) -/

/-- No instruction stops the model. -/
theorem exec_next (i : Instr) (s : State) : ∃ t, exec i s = .next t := by
  cases i with
  | load | storeReg | storeImm | pushReg | pushImm | pop | call | ret => exact Access.finish_next _ _ _ _
  | movReg | movImm | addReg | addImm | subReg | subImm | mulReg | mulImm | divReg | divImm | andReg | andImm | orReg
  | orImm | cmpReg | cmpImm | inc | dec | jmp | je | jg | jge | ja | jae | hlt => exact ⟨_, rfl⟩

/-- No step stops the model. -/
theorem step_next (s : State) : ∃ t, step s = .next t := by
  unfold step
  split
  · exact ⟨s, rfl⟩
  · exact ⟨s, rfl⟩
  · split
    · exact exec_next _ s
    · exact ⟨_, rfl⟩
    · exact ⟨_, rfl⟩

/-! Whether the next step reads the port does not depend on the host's side of it. -/

theorem State.hold_atPortRead (s : State) : s.hold.AtPortRead ↔ s.AtPortRead := Iff.rfl

theorem State.supplyByte_atPortRead (s : State) (b : Byte) : (s.supplyByte b).AtPortRead ↔ s.AtPortRead := Iff.rfl

theorem State.endInput_atPortRead (s : State) : s.endInput.AtPortRead ↔ s.AtPortRead := Iff.rfl

/-- Settles O13: the host's side of the port is in no clause of the invariant but the wait, and that only asks for a
port read. -/
theorem hostAnswersKeepTheInvariant : Obligations.HostAnswersKeepTheInvariant := fun s b hs =>
  ⟨⟨hs.memory, hs.halted, hs.faulted, fun h => (s.supplyByte_atPortRead b).2 (hs.waiting h)⟩,
    ⟨hs.memory, hs.halted, hs.faulted, fun h => s.endInput_atPortRead.2 (hs.waiting h)⟩⟩

/-- An instruction that reads the port and completes has the host's answer, and the engine is as before. -/
theorem Completed.answer_of_readsPort {i : Instr} {s t : State} (hc : Completed i s t) (hp : ReadsPort i s) :
    (∃ v, PortAnswer s t v) ∧ t.engine = s.engine := by
  constructor
  · rcases hc.outside with ⟨_, _, _, no⟩ | ⟨_, _, _, _, no⟩ | ⟨_, _, _, _, _, _, _, no⟩ | ⟨v, _, answer, _⟩
    · exact absurd hp no
    · exact absurd hp no
    · exact absurd hp no
    · exact ⟨v, answer⟩
  · rcases hc.control with ⟨rfl, _, _⟩ | ⟨_, he⟩
    · exact absurd hp (not_readsPort_of_none rfl)
    · exact he

/-- Everything a step at a port read can do: wait while the host has no answer, or complete with its answer. -/
theorem step_portRead_cases {s t : State} (hp : s.AtPortRead) (h : step s = .next t) :
    (s.input = [] ∧ s.inputEnded = false ∧ t = s.hold) ∨ ((∃ v, PortAnswer s t v) ∧ t.engine = .running) := by
  have hrun : s.engine = .running := hp.1
  rcases step_effect h with ⟨he, _⟩ | ⟨_, i, hd, hc⟩ | ⟨_, _, _, _, _, _, _, no⟩ | ⟨rfl, hin, hend, _⟩
  · exact absurd hrun he
  · obtain ⟨answer, he⟩ := hc.answer_of_readsPort ((State.atPortRead_iff hrun hd).1 hp)
    exact .inr ⟨answer, he.trans hrun⟩
  · exact absurd hp no
  · exact .inl ⟨hin, hend, rfl⟩

/-- A port read with no answer waits. -/
theorem step_portRead_waits {s : State} (hp : s.AtPortRead) (hin : s.input = []) (hend : s.inputEnded = false) :
    step s = .next s.hold := by
  obtain ⟨t, ht⟩ := step_next s
  rcases step_portRead_cases hp ht with ⟨_, _, rfl⟩ | ⟨⟨_, _, _, ⟨b, rest, hb, _⟩ | ⟨_, he, _⟩⟩, _⟩
  · exact ht
  · simp [hin] at hb
  · simp [hend] at he

/-- A port read with a byte ready takes it. -/
theorem step_portRead_takes {s : State} (hp : s.AtPortRead) {b : Byte} {rest : List Byte} (hin : s.input = b :: rest) :
    ∃ t, step s = .next t ∧ t.inputWaiting = false ∧ t.engine = .running ∧
      t.history = s.history ++ [.consumed b] := by
  obtain ⟨t, ht⟩ := step_next s
  rcases step_portRead_cases hp ht with ⟨hnil, _⟩ | ⟨⟨_, wait, _, ⟨c, _, hc, _, _, hist⟩ | ⟨hnil, _⟩⟩, he⟩
  · simp [hin] at hnil
  · obtain ⟨rfl, _⟩ := List.cons.inj (hin.symm.trans hc)
    exact ⟨t, ht, wait, he, hist⟩
  · simp [hin] at hnil

/-- A port read at end of input completes and takes nothing. -/
theorem step_portRead_ended {s : State} (hp : s.AtPortRead) (hin : s.input = []) (hend : s.inputEnded = true) :
    ∃ t, step s = .next t ∧ t.inputWaiting = false ∧ t.engine = .running ∧ t.history = s.history := by
  obtain ⟨t, ht⟩ := step_next s
  rcases step_portRead_cases hp ht with ⟨_, he, _⟩ | ⟨⟨_, wait, _, ⟨c, _, hc, _⟩ | ⟨_, _, _, _, hist⟩⟩, he⟩
  · simp [hend] at he
  · simp [hin] at hc
  · exact ⟨t, ht, wait, he, hist⟩

/-- A step that begins to wait is at a port read with no answer. -/
theorem step_waits_cases {s t : State} (h : step s = .next t) (hs : s.inputWaiting = false)
    (ht : t.inputWaiting = true) : s.AtPortRead ∧ s.input = [] ∧ s.inputEnded = false ∧ t = s.hold := by
  rcases step_effect h with ⟨_, rfl⟩ | ⟨_, i, _, hc⟩ | ⟨_, _, _, _, _, hf, _, _⟩ | ⟨rfl, hin, hend, hp⟩
  · simp [hs] at ht
  · simp [hc.inputWaiting_eq_false (by simp [hs])] at ht
  · obtain ⟨_, _, _, _, _, ⟨_, _, wait⟩, _⟩ := hf
    simp [wait, hs] at ht
  · exact ⟨hp, hin, hend, rfl⟩

/-- Settles O23: the step that waits stays at its port read, and does what the host's answer lets a port read do. -/
theorem onlyTheHostsAnswerLiftsAWait : Obligations.OnlyTheHostsAnswerLiftsAWait := by
  intro s t h hs ht
  obtain ⟨hp, hin, hend, rfl⟩ := step_waits_cases h hs ht
  have hhold : s.hold.AtPortRead := s.hold_atPortRead.2 hp
  have hready (b : Byte) : (s.hold.supplyByte b).input = [b] := congrArg (· ++ [b]) hin
  exact ⟨rfl, hp.1, step_portRead_waits hhold hin hend,
    fun b => step_portRead_takes ((s.hold.supplyByte_atPortRead b).2 hhold) (hready b),
    step_portRead_ended (s.hold.endInput_atPortRead.2 hhold) hin rfl⟩

/-! ### Decode faults (30_encoding.md R117) -/

/-- The first of some bytes that names no register (R113). -/
def firstBadRegister (bs : List Byte) : Option Byte := bs.find? fun b => decide (10 < b.toNat)

/-- One register byte, above 10: the rejection names it. -/
theorem decodeReg_of_firstBad {n : Nat} {b v : Byte} {k : Reg → Decoded} (h : firstBadRegister [b] = some v) :
    decodeReg n b k = .invalidRegister v n := by
  rcases decodeReg_cases n b k with ⟨hb, hd⟩ | ⟨hb, _⟩
  · obtain rfl : b = v := by simpa [firstBadRegister, hb] using h
    exact hd
  · simp [firstBadRegister, hb] at h

/-- Two register bytes, one of them above 10: the rejection names the first such. -/
theorem decodeReg_decodeReg_of_firstBad {n : Nat} {b c v : Byte} {k : Reg → Reg → Decoded}
    (h : firstBadRegister [b, c] = some v) :
    (decodeReg n b fun d => decodeReg n c (k d)) = .invalidRegister v n := by
  rcases decodeReg_cases n b fun d => decodeReg n c (k d) with ⟨hb, hd⟩ | ⟨hb, r, _, _, hd⟩
  · obtain rfl : b = v := by simpa [firstBadRegister, hb] using h
    exact hd
  · rw [hd]
    exact decodeReg_of_firstBad (by simpa [firstBadRegister, hb] using h)

/-- Whatever the mnemonic, a bad register byte at a place its format has one is rejected, the first in stream order. -/
theorem decodeOperands_of_firstBad {k : Mnemonic} {w : Window} {v : Byte}
    (h : firstBadRegister ((registerPlaces k.format).map fun p => w.toList.getD p 0) = some v) :
    decodeOperands k w = .invalidRegister v k.format.length := by
  cases k with
  | movReg | load | storeReg | addReg | subReg | mulReg | divReg | andReg | orReg | cmpReg =>
    exact decodeReg_decodeReg_of_firstBad h
  | movImm | storeImm | addImm | subImm | mulImm | divImm | andImm | orImm | cmpImm | inc | dec | pushReg | pop =>
    exact decodeReg_of_firstBad h
  | pushImm | jmp | je | jg | jge | ja | jae | call | ret | hlt => cases h

/-- The bytes at a format's register places, as fetched one by one and as the window holds them. -/
theorem State.registerBytes_eq_window (s : State) (f : Format) :
    (registerPlaces f).map (fun p => s.fetchByte (s.pc + BitVec.ofNat 16 p)) =
      (registerPlaces f).map fun p => s.window.toList.getD p 0 := by
  cases f <;> rfl

/-- A step at an invalid register byte. -/
theorem step_invalidRegister {s : State} (he : s.engine = .running) {v : Byte} {n : Nat}
    (hd : s.fetchDecode = .invalidRegister v n) : step s = .next (s.takeInvalidRegister v n) := by
  simp only [step, he, hd]

/-- The decode fault of every mnemonic, at the register places of its format. -/
theorem rejectsBadRegister (k : Mnemonic) : RejectsBadRegister k (registerPlaces k.format) := by
  intro s v he hk hv
  rw [s.registerBytes_eq_window] at hv
  have hd : s.fetchDecode = .invalidRegister v k.format.length := by
    have hk' : mnemonicOfByte s.cfg.opcodes s.window.b0 = some k := hk
    rw [State.fetchDecode, decode, hk']
    exact decodeOperands_of_firstBad hv
  exact ⟨_, step_invalidRegister he hd, s.raiseFatal_faults _ _ _⟩

/-! ### The instructions that read a word (41_load_store.md R160, 43_stack.md R236, 44_control.md R259) -/

/-- Settles O27: the reading access of LOAD, its encoding and the decode fault of its format. -/
theorem loadReadsAWord : Obligations.LoadReadsAWord :=
  ⟨execLoad_dataRead, fun _ _ _ => ⟨fun _ => rfl, rfl⟩, rejectsBadRegister .load⟩

/-- Settles O45: the reading access of POP, its encoding and the decode fault of its format. -/
theorem popPopsIntoARegister : Obligations.PopPopsIntoARegister :=
  ⟨execPop_dataRead, fun _ => ⟨fun _ => rfl, rfl⟩, rejectsBadRegister .pop⟩

/-- RET, with its registers: SP two higher, and PC takes the word read. -/
theorem execRet_dataRead (s : State) :
    ∃ t, exec .ret s = .next t ∧
      DataRead s t 1 (s.sp.setWidth 17) fun v => t.pc = v ∧ t.sp = s.sp + 2 ∧ SameRegs [.sp, .pc] s t := by
  refine Access.finish_dataRead (f := fun u => u.setReg .sp (s.sp + 2)) ?_
    (fun v u => ((OnlyRegs.refl u).setReg .sp _).setReg .pc v) fun v u hu => ⟨?_, ?_, fun q hq => ?_⟩
  · rw [toNat_setWidth_17]
    exact (s.advance 1).pop_cases
  · simp
  · simp
  · simp only [List.mem_cons, List.not_mem_nil, or_false, not_or] at hq
    obtain ⟨hqs, hqp⟩ := hq
    rw [State.setReg_reg, if_neg hqp, State.setReg_reg, if_neg hqs]
    exact (hu q).trans (s.src_of_ne_pc 1 hqp)

/-- Settles O50: the reading access of RET and its encoding. -/
theorem retPopsIntoThePc : Obligations.RetPopsIntoThePc :=
  ⟨execRet_dataRead, fun _ => rfl, rfl⟩

/-! ### The fetch of a stored word (20_memory.md R96) -/

/-- A write into the array, outright. -/
theorem State.memWrite_stores (s : State) {ea : EffAddr} (v : Word) (hle : ea.toNat ≤ 0xFFFE)
    (hp : ¬ s.PortAccess ea) : s.memWrite ea v = .done () (s.setMem (s.mem.storeWord ea.toNat v)) := by
  rcases s.memWrite_cases ea v with ⟨hb, _⟩ | ⟨t, h, _, ⟨hp', _⟩ | ⟨_, rfl⟩⟩
  · omega
  · exact absurd hp' hp
  · exact h

/-- STORE_IMM into the array, outright. -/
theorem execStoreImm_stores (b : Reg) (off imm : Word) (s : State) (hle : (effAddr (s.src 6 b) off).toNat ≤ 0xFFFE)
    (hp : ¬ s.PortAccess (effAddr (s.src 6 b) off)) :
    exec (.storeImm b off imm) s =
      .next ((s.advance 6).setMem (s.mem.storeWord (effAddr (s.src 6 b) off).toNat imm)) := by
  show execStoreImm b off imm s = _
  simp only [execStoreImm, State.advance_reg_eq_src, (s.advance 6).memWrite_stores imm hle hp]
  rfl

/-- A word stored at PC is the first two bytes of the window. -/
theorem State.window_of_storeWord_pc (s : State) {a : Nat} (v : Word) (ha : a = s.pc.toNat) (hle : a ≤ 0xFFFE) :
    (s.setMem (s.mem.storeWord a v)).window.b0 = lowByte v ∧
      (s.setMem (s.mem.storeWord a v)).window.b1 = highByte v := by
  have hnext : (s.pc + 1).toNat = a + 1 := by
    rw [BitVec.toNat_add, ← ha]
    exact Nat.mod_eq_of_lt (by simp; omega)
  constructor
  · exact (Memory.read_storeWord s.mem a v s.pc.toNat).trans (by simp [← ha])
  · exact (Memory.read_storeWord s.mem a v (s.pc + 1).toNat).trans (if_pos hnext)

/-- Settles O54: the store lands at the PC that the instruction leaves. -/
theorem storedBytesAreFetched : Obligations.StoredBytesAreFetched := by
  intro b off imm s hpc hle hp
  exact ⟨_, execStoreImm_stores b off imm s hle hp, (s.advance 6).window_of_storeWord_pc imm hpc hle⟩

end Sys2Proof.Machine
end

section
/-! PROOF. The family 30_encoding.md: the round trips between instructions and bytes, the words the spec writes out, and
what one step request does with the bytes at PC. -/

namespace Sys2Proof

/-! ### Decoding the bytes of an encoding (30_encoding.md R112 to R116) -/

theorem decodeRR_ofBytes (mk : Reg → Reg → Instr) (op : Byte) (d s : Reg) (rest : List Byte) :
    decodeRR mk (Window.ofBytes (op :: byteOfReg d :: byteOfReg s :: rest)) = .instr (mk d s) := by
  simp [decodeRR, Window.ofBytes]

theorem decodeRI_ofBytes (mk : Reg → Word → Instr) (op : Byte) (d : Reg) (imm : Word) (rest : List Byte) :
    decodeRI mk (Window.ofBytes (op :: byteOfReg d :: lowByte imm :: highByte imm :: rest)) = .instr (mk d imm) := by
  simp [decodeRI, Window.ofBytes]

theorem decodeLD_ofBytes (mk : Reg → Reg → Word → Instr) (op : Byte) (d b : Reg) (off : Word) (rest : List Byte) :
    decodeLD mk (Window.ofBytes (op :: byteOfReg d :: byteOfReg b :: lowByte off :: highByte off :: rest)) =
      .instr (mk d b off) := by
  simp [decodeLD, Window.ofBytes]

theorem decodeSR_ofBytes (mk : Reg → Word → Reg → Instr) (op : Byte) (b : Reg) (off : Word) (s : Reg)
    (rest : List Byte) :
    decodeSR mk (Window.ofBytes (op :: byteOfReg b :: lowByte off :: highByte off :: byteOfReg s :: rest)) =
      .instr (mk b off s) := by
  simp [decodeSR, Window.ofBytes]

theorem decodeSI_ofBytes (mk : Reg → Word → Word → Instr) (op : Byte) (b : Reg) (off imm : Word) (rest : List Byte) :
    decodeSI mk (Window.ofBytes
        (op :: byteOfReg b :: lowByte off :: highByte off :: lowByte imm :: highByte imm :: rest)) =
      .instr (mk b off imm) := by
  simp [decodeSI, Window.ofBytes]

theorem decodeR_ofBytes (mk : Reg → Instr) (op : Byte) (r : Reg) (rest : List Byte) :
    decodeR mk (Window.ofBytes (op :: byteOfReg r :: rest)) = .instr (mk r) := by
  simp [decodeR, Window.ofBytes]

theorem decodeI_ofBytes (mk : Word → Instr) (op : Byte) (v : Word) (rest : List Byte) :
    decodeI mk (Window.ofBytes (op :: lowByte v :: highByte v :: rest)) = .instr (mk v) := by
  simp [decodeI, Window.ofBytes]

/-- The operand bytes of an instruction decode to it, format by format. -/
theorem decodeOperands_encode (m : OpcodeMap) (i : Instr) (rest : List Byte) :
    decodeOperands i.mnemonic (Window.ofBytes (encode m i ++ rest)) = .instr i := by
  cases i with
  | movReg | addReg | subReg | mulReg | divReg | andReg | orReg | cmpReg => exact decodeRR_ofBytes _ _ _ _ rest
  | movImm | addImm | subImm | mulImm | divImm | andImm | orImm | cmpImm => exact decodeRI_ofBytes _ _ _ _ rest
  | load => exact decodeLD_ofBytes _ _ _ _ _ rest
  | storeReg => exact decodeSR_ofBytes _ _ _ _ _ rest
  | storeImm => exact decodeSI_ofBytes _ _ _ _ _ rest
  | inc | dec | pushReg | pop => exact decodeR_ofBytes _ _ _ rest
  | pushImm | jmp | je | jg | jge | ja | jae | call => exact decodeI_ofBytes _ _ _ rest
  | ret | hlt => rfl

/-- Where the map gives an instruction's opcode byte back to its mnemonic, decoding inverts encoding. -/
theorem decode_encode {m : OpcodeMap} {i : Instr}
    (h : mnemonicOfByte m (opcodeByte m i.mnemonic) = some i.mnemonic) (rest : List Byte) :
    decode m (Window.ofBytes (encode m i ++ rest)) = .instr i := by
  have hb : (Window.ofBytes (encode m i ++ rest)).b0 = opcodeByte m i.mnemonic := rfl
  rw [decode, hb, h]
  exact decodeOperands_encode m i rest

/-- No other mnemonic shares the opcode byte of a well-formed instruction. -/
theorem mnemonicOfByte_opcodeByte_of_wf {m : OpcodeMap} {i : Instr} (h : i.wf m = true) :
    mnemonicOfByte m (opcodeByte m i.mnemonic) = some i.mnemonic := by
  refine mnemonicOfByte_opcodeByte fun k hk => ?_
  have hor := List.all_eq_true.1 h k k.mem_all
  rw [Bool.or_eq_true, beq_iff_eq, bne_iff_ne] at hor
  exact hor.resolve_right fun hne => hne hk

/-- Settles O1: the opcode byte gives the mnemonic back, and the operand bytes the operands. -/
theorem decodeOfEncodeIsTheInstruction : Obligations.DecodeOfEncodeIsTheInstruction :=
  fun _ _ rest h => decode_encode (mnemonicOfByte_opcodeByte_of_wf h) rest

/-- The encoding of any instruction under the reference map decodes to it. -/
theorem decode_reference_of_eq_encode {i : Instr} {bs : List Byte} (h : bs = encode referenceOpcodeMap i) :
    decode referenceOpcodeMap (Window.ofBytes bs) = .instr i := by
  obtain ⟨hwf, _⟩ := injectiveMapsEncodeEveryInstruction
  rw [h, ← List.append_nil (encode referenceOpcodeMap i)]
  exact decode_encode (mnemonicOfByte_opcodeByte_of_wf (i.wf_of_opcodeMap_wf hwf)) []

/-- Settles O4: each of the words is the encoding of its instruction. -/
theorem specWordsDecode : Obligations.SpecWordsDecode := by
  refine ⟨?_, ?_, ?_, ?_, ?_, ?_, ?_, ?_, ?_, ?_, ?_⟩ <;> exact decode_reference_of_eq_encode rfl

/-! ### The bytes a decoded instruction came from (30_encoding.md R110, R124) -/

theorem byteOfReg_of_decodeReg {n : Nat} {b : Byte} {k : Reg → Decoded} {i : Instr} (h : decodeReg n b k = .instr i) :
    ∃ r, byteOfReg r = b ∧ k r = .instr i := by
  rcases decodeReg_cases n b k with ⟨_, hd⟩ | ⟨_, r, _, hr, hd⟩
  · cases hd.symm.trans h
  · exact ⟨r, hr, hd.symm.trans h⟩

theorem bytes_of_decodeRR {mk : Reg → Reg → Instr} {w : Window} {i : Instr} (h : decodeRR mk w = .instr i) :
    ∃ d s, i = mk d s ∧ [byteOfReg d, byteOfReg s] = [w.b1, w.b2] := by
  obtain ⟨d, hd, h⟩ := byteOfReg_of_decodeReg h
  obtain ⟨s, hs, h⟩ := byteOfReg_of_decodeReg h
  cases h
  exact ⟨d, s, rfl, by rw [hd, hs]⟩

theorem bytes_of_decodeRI {mk : Reg → Word → Instr} {w : Window} {i : Instr} (h : decodeRI mk w = .instr i) :
    ∃ d imm, i = mk d imm ∧ [byteOfReg d, lowByte imm, highByte imm] = [w.b1, w.b2, w.b3] := by
  obtain ⟨d, hd, h⟩ := byteOfReg_of_decodeReg h
  cases h
  exact ⟨d, _, rfl, by simp [hd]⟩

theorem bytes_of_decodeLD {mk : Reg → Reg → Word → Instr} {w : Window} {i : Instr} (h : decodeLD mk w = .instr i) :
    ∃ d b off, i = mk d b off ∧
      [byteOfReg d, byteOfReg b, lowByte off, highByte off] = [w.b1, w.b2, w.b3, w.b4] := by
  obtain ⟨d, hd, h⟩ := byteOfReg_of_decodeReg h
  obtain ⟨b, hb, h⟩ := byteOfReg_of_decodeReg h
  cases h
  exact ⟨d, b, _, rfl, by simp [hd, hb]⟩

theorem bytes_of_decodeSR {mk : Reg → Word → Reg → Instr} {w : Window} {i : Instr} (h : decodeSR mk w = .instr i) :
    ∃ b off s, i = mk b off s ∧
      [byteOfReg b, lowByte off, highByte off, byteOfReg s] = [w.b1, w.b2, w.b3, w.b4] := by
  obtain ⟨b, hb, h⟩ := byteOfReg_of_decodeReg h
  obtain ⟨s, hs, h⟩ := byteOfReg_of_decodeReg h
  cases h
  exact ⟨b, _, s, rfl, by simp [hb, hs]⟩

theorem bytes_of_decodeSI {mk : Reg → Word → Word → Instr} {w : Window} {i : Instr} (h : decodeSI mk w = .instr i) :
    ∃ b off imm, i = mk b off imm ∧
      [byteOfReg b, lowByte off, highByte off, lowByte imm, highByte imm] = [w.b1, w.b2, w.b3, w.b4, w.b5] := by
  obtain ⟨b, hb, h⟩ := byteOfReg_of_decodeReg h
  cases h
  exact ⟨b, _, _, rfl, by simp [hb]⟩

theorem bytes_of_decodeR {mk : Reg → Instr} {w : Window} {i : Instr} (h : decodeR mk w = .instr i) :
    ∃ r, i = mk r ∧ [byteOfReg r] = [w.b1] := by
  obtain ⟨r, hr, h⟩ := byteOfReg_of_decodeReg h
  cases h
  exact ⟨r, rfl, by rw [hr]⟩

theorem bytes_of_decodeI {mk : Word → Instr} {w : Window} {i : Instr} (h : decodeI mk w = .instr i) :
    ∃ v, i = mk v ∧ [lowByte v, highByte v] = [w.b1, w.b2] := by
  cases h
  exact ⟨_, rfl, by simp⟩

/-- Operands that decode to an instruction are its operand bytes, as many as the format has. -/
theorem operandBytes_of_decodeOperands {k : Mnemonic} {w : Window} {i : Instr} (h : decodeOperands k w = .instr i) :
    i.mnemonic = k ∧ operandBytes i = w.toList.tail.take (k.format.length - 1) := by
  cases k with
  | movReg | addReg | subReg | mulReg | divReg | andReg | orReg | cmpReg =>
    obtain ⟨_, _, rfl, hb⟩ := bytes_of_decodeRR h
    exact ⟨rfl, hb⟩
  | movImm | addImm | subImm | mulImm | divImm | andImm | orImm | cmpImm =>
    obtain ⟨_, _, rfl, hb⟩ := bytes_of_decodeRI h
    exact ⟨rfl, hb⟩
  | load =>
    obtain ⟨_, _, _, rfl, hb⟩ := bytes_of_decodeLD h
    exact ⟨rfl, hb⟩
  | storeReg =>
    obtain ⟨_, _, _, rfl, hb⟩ := bytes_of_decodeSR h
    exact ⟨rfl, hb⟩
  | storeImm =>
    obtain ⟨_, _, _, rfl, hb⟩ := bytes_of_decodeSI h
    exact ⟨rfl, hb⟩
  | inc | dec | pushReg | pop =>
    obtain ⟨_, rfl, hb⟩ := bytes_of_decodeR h
    exact ⟨rfl, hb⟩
  | pushImm | jmp | je | jg | jge | ja | jae | call =>
    obtain ⟨_, rfl, hb⟩ := bytes_of_decodeI h
    exact ⟨rfl, hb⟩
  | ret | hlt =>
    cases h
    exact ⟨rfl, rfl⟩

/-- What decodes to an instruction has its opcode byte and its operands. -/
theorem mnemonicOfByte_of_decode {m : OpcodeMap} {w : Window} {i : Instr} (h : decode m w = .instr i) :
    mnemonicOfByte m w.b0 = some i.mnemonic ∧ decodeOperands i.mnemonic w = .instr i := by
  unfold decode at h
  split at h
  · cases h
  next k hk =>
    obtain ⟨rfl, _⟩ := operandBytes_of_decodeOperands h
    exact ⟨hk, h⟩

/-- A window that decodes to an instruction begins with its encoding. -/
theorem encode_of_decode {m : OpcodeMap} {w : Window} {i : Instr} (h : decode m w = .instr i) :
    encode m i = w.toList.take i.length := by
  obtain ⟨hk, ho⟩ := mnemonicOfByte_of_decode h
  obtain ⟨_, hb⟩ := operandBytes_of_decodeOperands ho
  have hlen : i.length = (i.mnemonic.format.length - 1) + 1 := (Nat.sub_add_cancel (Format.length_bounds _).1).symm
  rw [encode, opcodeByte_of_mnemonicOfByte hk, hb, hlen]
  rfl

theorem Window.ofBytes_toList (w : Window) : Window.ofBytes w.toList = w := rfl

/-- Settles O2: the bytes are the encoding, and an encoding decodes to its instruction whatever follows it. -/
theorem encodeOfDecodeIsTheBytes : Obligations.EncodeOfDecodeIsTheBytes := by
  intro m w i h
  have hbytes := encode_of_decode h
  refine ⟨hbytes, fun w' hw' => ?_⟩
  obtain ⟨hk, _⟩ := mnemonicOfByte_of_decode h
  have hw : w' = Window.ofBytes (encode m i ++ w'.toList.drop i.length) := by
    rw [hbytes, ← hw', List.take_append_drop, w'.ofBytes_toList]
  rw [hw]
  exact decode_encode (by rwa [opcodeByte_of_mnemonicOfByte hk]) _

/-! ### Unknown opcode bytes of the reference map (30_encoding.md R121, R123) -/

theorem Mnemonic.exists_index_eq (n : Fin 33) : ∃ k : Mnemonic, k.index = n :=
  ⟨Mnemonic.all.get n, by revert n; decide⟩

/-- The reference map numbers the mnemonics from 0x01 in table order. -/
theorem opcodeByte_reference_toNat (k : Mnemonic) : (opcodeByte referenceOpcodeMap k).toNat = k.index + 1 := by
  cases k <;> rfl

theorem mnemonicOfByte_reference_eq_none_iff (op : Byte) :
    mnemonicOfByte referenceOpcodeMap op = none ↔ (op = 0x00 ∨ 0x22 ≤ op.toNat) := by
  have hzero : op = 0x00 ↔ op.toNat = 0 := BitVec.toNat_inj.symm
  rw [mnemonicOfByte_eq_none_iff, hzero]
  constructor
  · intro h
    by_contra hop
    obtain ⟨k, hk⟩ := Mnemonic.exists_index_eq ⟨op.toNat - 1, by omega⟩
    refine h k (BitVec.eq_of_toNat_eq ?_)
    rw [opcodeByte_reference_toNat, hk]
    exact Nat.sub_add_cancel (by omega)
  · rintro h k rfl
    have hk := opcodeByte_reference_toNat k
    omega

end Sys2Proof

namespace Sys2Proof.Machine

/-! ### One step request (30_encoding.md R115 to R118, R123, R287) -/

theorem step_of_not_running {s : State} (he : s.engine ≠ .running) : step s = .next s := by
  obtain ⟨t, ht⟩ := step_next s
  rw [ht, step_eq_self_of_not_running ht he]

theorem step_instr {s : State} (he : s.engine = .running) {i : Instr} (hd : s.fetchDecode = .instr i) :
    step s = exec i s := by
  simp only [step, he, hd]

theorem step_unknownOpcode {s : State} (he : s.engine = .running) {op : Byte}
    (hd : s.fetchDecode = .unknownOpcode op) : step s = .next (s.takeUnknownOpcode op) := by
  simp only [step, he, hd]

/-- Settles O5: by the equation of a step outside Running, and that of a step at a decoded instruction. -/
theorem stepRunsTheDecodedInstruction : Obligations.StepRunsTheDecodedInstruction :=
  fun _ => ⟨step_of_not_running, fun _ he hd => step_instr he hd⟩

theorem State.fetchDecode_unknownOpcode {s : State} (h : mnemonicOfByte s.cfg.opcodes (s.fetchByte s.pc) = none) :
    s.fetchDecode = .unknownOpcode (s.fetchByte s.pc) := by
  have hb : s.window.b0 = s.fetchByte s.pc := rfl
  rw [State.fetchDecode, decode, hb, h]

/-- Settles O6: the decoder rejects the byte, and the step raises the local fault one byte further. -/
theorem unknownOpcodeIsALocalFault : Obligations.UnknownOpcodeIsALocalFault :=
  ⟨fun s he h => ⟨_, step_unknownOpcode he (State.fetchDecode_unknownOpcode h), s.raiseLocal_faults _ _ _⟩,
    mnemonicOfByte_reference_eq_none_iff⟩

/-- Settles O7: the decode fault at the register places of each format. -/
theorem invalidRegisterIsAFatalFault : Obligations.InvalidRegisterIsAFatalFault := rejectsBadRegister

/-- Settles O8: no arm of a step stops. -/
theorem everyStepAnswersANextState : Obligations.EveryStepAnswersANextState := step_next

/-- Settles O9: by cases on what a step can do to the history. -/
theorem oneEventPerStep : Obligations.OneEventPerStep := fun _ _ => step_history_cases

end Sys2Proof.Machine
end

section
/-! PROOF. The family 40_move.md: what a move leaves, for every pair of registers and every immediate. -/

namespace Sys2Proof.Machine

/-! ### A register write after PC was moved past the instruction (40_move.md R150, R151) -/

/-- Where the registers are as an instruction reads them (R119), writing one of them leaves what `WritesReg` says: PC, unless
it is the one written, is the next instruction's address. -/
theorem State.setReg_writesReg {s u : State} {len : Nat} (hu : ∀ q, u.reg q = s.src len q) (d : Reg) (v : Word) :
    WritesReg s (u.setReg d v) len d v := by
  refine ⟨?_, fun hd => ?_, fun q hq => ?_⟩
  · rw [State.setReg_reg, if_pos rfl]
  · rw [← State.reg_pc, State.setReg_reg, if_neg hd.symm]
    exact hu .pc
  · simp only [List.mem_cons, List.not_mem_nil, or_false, not_or] at hq
    obtain ⟨hqd, hqp⟩ := hq
    rw [State.setReg_reg, if_neg hqd]
    exact (hu q).trans (s.src_of_ne_pc len hqp)

theorem OnlyRegs.sameOutside {s t : State} (h : OnlyRegs s t) : SameOutside s t :=
  ⟨fun a => by rw [h.mem], h.input, h.history, h.control⟩

/-- The whole effect of a move of `v` into `d`: the register write, and nothing of flags, memory, input, history or control. -/
theorem State.advance_setReg_moves (s : State) (len : Nat) (d : Reg) (v : Word) :
    WritesReg s ((s.advance len).setReg d v) len d v ∧ ((s.advance len).setReg d v).flags = s.flags ∧
      SameOutside s ((s.advance len).setReg d v) :=
  have honly : OnlyRegs s ((s.advance len).setReg d v) := ((OnlyRegs.refl s).setReg .pc _).setReg d v
  ⟨State.setReg_writesReg (s.advance_reg_eq_src len) d v, honly.flags, honly.sameOutside⟩

theorem execMovReg_eq (d r : Reg) (s : State) :
    exec (.movReg d r) s = .next ((s.advance 3).setReg d (s.src 3 r)) := by
  rw [← State.advance_reg_eq_src]
  rfl

/-- Settles O24: the move of the source's value, read after PC was moved; the encoding; the decode fault of its format. -/
theorem movRegCopiesARegister : Obligations.MovRegCopiesARegister :=
  ⟨fun d r s => ⟨_, execMovReg_eq d r s, s.advance_setReg_moves 3 d (s.src 3 r)⟩,
    fun _ _ => ⟨fun _ => rfl, rfl⟩, rejectsBadRegister .movReg⟩

/-- Settles O25: the move of the immediate, its encoding and the decode fault of its format. -/
theorem movImmLoadsAWord : Obligations.MovImmLoadsAWord :=
  ⟨fun d imm s => ⟨_, rfl, s.advance_setReg_moves 4 d imm⟩, fun _ _ => ⟨fun _ => rfl, rfl⟩, rejectsBadRegister .movImm⟩

end Sys2Proof.Machine
end

section
/-! PROOF. The family 41_load_store.md: what a write of a word leaves, and with it the two store instructions. -/

namespace Sys2Proof.Machine

/-! ### What a completed word write leaves (20_memory.md R81, R87) -/

theorem StoresWord.of_mem_eq {s t : State} {ea : EffAddr} {v : Word} (h : t.mem = s.mem.storeWord ea.toNat v) :
    StoresWord s t ea v := by
  rw [StoresWord, h]
  refine ⟨?_, ?_, fun a hlow hhigh => ?_⟩
  · simp [Memory.read_storeWord]
  · simp [Memory.read_storeWord]
  · rw [Memory.read_storeWord, if_neg hhigh, if_neg hlow]

/-- A completed write writes no register. -/
theorem WriteDone.reg_eq {s t : State} {ea : EffAddr} {v : Word} (h : WriteDone s t ea v) (q : Reg) :
    t.reg q = s.reg q := by
  rcases h.effect with ⟨_, rfl⟩ | ⟨_, rfl⟩ <;> simp

/-- A completed write changes neither flags, input nor control. -/
theorem WriteDone.keeps {s t : State} {ea : EffAddr} {v : Word} (h : WriteDone s t ea v) :
    t.flags = s.flags ∧ SameInput s t ∧ SameControl s t := by
  rcases h.effect with ⟨_, rfl⟩ | ⟨_, rfl⟩ <;> simp [SameInput, SameControl]

/-- An instruction of `len` bytes that writes the word `v` at `ea` and then writes registers only (`f` those of the access
itself, `k` those of the instruction) leaves what `DataWrite` says. -/
theorem Access.finish_dataWrite {s : State} {len : Nat} {ea : EffAddr} {v : Word} {acc : Access Unit}
    {f : State → State} {k : Unit → State → State} {regs : State → Prop}
    (hacc : (0xFFFE < ea.toNat ∧ acc = .outOfRange ea) ∨
      ∃ u, acc = .done () (f u) ∧ WriteDone (s.advance len) u ea v)
    (honly : ∀ u, OnlyRegs u (k () (f u)))
    (hregs : ∀ u, (∀ q, u.reg q = s.src len q) → regs (k () (f u))) :
    ∃ t, acc.finish s (s.advance len) k = .next t ∧ DataWrite s t len ea v (regs t) := by
  rcases hacc with ⟨hb, rfl⟩ | ⟨u, rfl, hd⟩ <;> refine ⟨_, rfl, ?_⟩ <;> unfold DataWrite
  · rw [if_pos hb]
    exact s.raiseLocal_faults _ _ _
  · obtain ⟨hf, hm, ⟨hin, hend, hwait⟩, hh, hhalt, heng, hcfg⟩ := honly u
    have hreg := hregs u fun q => (hd.reg_eq q).trans (s.advance_reg_eq_src len q)
    obtain ⟨hflags, ⟨hinput, hended, hwaiting⟩, hhalted, hengine, hconfig⟩ := hd.keeps
    obtain ⟨hle, heffect⟩ := hd
    rw [if_neg (by omega)]
    refine ⟨hreg, hf.trans hflags, ⟨hin.trans hinput, hend.trans hended, hwait.trans hwaiting⟩,
      ⟨hhalt.trans hhalted, heng.trans hengine, hcfg.trans hconfig⟩, ?_⟩
    rcases heffect with ⟨hp, rfl⟩ | ⟨hp, rfl⟩
    · refine .inl ⟨hp, ?_, fun a => by rw [hm]; rfl⟩
      rw [hh, ← lowByte_eq_ofNat]
      rfl
    · exact .inr ⟨hp, hh, .of_mem_eq hm⟩

/-! ### The store instructions (41_load_store.md R161, R162) -/

/-- Where the registers are as an instruction reads them (R119) and it writes none, PC is the next instruction's address. -/
theorem State.writesNoReg_of_reg_eq_src {s u : State} {len : Nat} (hu : ∀ q, u.reg q = s.src len q) :
    WritesNoReg s u len :=
  ⟨hu .pc, fun q hq => (hu q).trans (s.src_of_ne_pc len (by simpa using hq))⟩

/-- The end of a store: it writes the word `v` at `ea` and no register. -/
theorem State.memWrite_finish_dataWrite (s : State) (len : Nat) (ea : EffAddr) (v : Word) :
    ∃ t, ((s.advance len).memWrite ea v).finish s (s.advance len) (fun _ u => u) = .next t ∧
      DataWrite s t len ea v (WritesNoReg s t len) :=
  Access.finish_dataWrite (f := id) ((s.advance len).memWrite_cases ea v) OnlyRegs.refl
    fun _ => State.writesNoReg_of_reg_eq_src

theorem execStoreReg_dataWrite (b : Reg) (off : Word) (r : Reg) (s : State) :
    ∃ t, exec (.storeReg b off r) s = .next t ∧
      DataWrite s t 5 (effAddr (s.src 5 b) off) (s.src 5 r) (WritesNoReg s t 5) := by
  rw [← State.advance_reg_eq_src, ← State.advance_reg_eq_src]
  exact s.memWrite_finish_dataWrite 5 _ _

theorem execStoreImm_dataWrite (b : Reg) (off imm : Word) (s : State) :
    ∃ t, exec (.storeImm b off imm) s = .next t ∧
      DataWrite s t 6 (effAddr (s.src 6 b) off) imm (WritesNoReg s t 6) := by
  rw [← State.advance_reg_eq_src]
  exact s.memWrite_finish_dataWrite 6 _ _

/-- Settles O28: the writing access of STORE_REG, its encoding and the decode fault of its format. -/
theorem storeRegWritesAWord : Obligations.StoreRegWritesAWord :=
  ⟨execStoreReg_dataWrite, fun _ _ _ => ⟨fun _ => rfl, rfl⟩, rejectsBadRegister .storeReg⟩

/-- Settles O29: the writing access of STORE_IMM, its encoding and the decode fault of its format. -/
theorem storeImmWritesAWord : Obligations.StoreImmWritesAWord :=
  ⟨execStoreImm_dataWrite, fun _ _ _ => ⟨fun _ => rfl, rfl⟩, rejectsBadRegister .storeImm⟩

end Sys2Proof.Machine
end

section
/-! PROOF. The family 42_alu.md: what the ALU functions compute, and the instructions that put their results in a register
and the flags. -/

namespace Sys2Proof.Machine

/-! ### ZF and SF of a result (42_alu.md R181 to R185) -/

theorem resultFlags_zf_iff (r : Word) (cf of : Bool) : (resultFlags r cf of).zf = true ↔ r = 0x0000 := beq_iff_eq

theorem resultFlags_sf (r : Word) (cf of : Bool) : (resultFlags r cf of).sf = r.getLsbD 15 :=
  r.msb_eq_getLsbD_last

/-! ### Sums and differences (42_alu.md R181, R182) -/

/-- OF of a sum: equal signs of the operands, and another sign of the result. -/
theorem addOp_of_iff_signs (a b : Word) :
    (addOp a b).2.of = true ↔ a.getLsbD 15 = b.getLsbD 15 ∧ (addOp a b).1.getLsbD 15 ≠ a.getLsbD 15 := by
  simp [addOp, resultFlags, BitVec.msb_eq_getLsbD_last]

/-- OF of a difference: different signs of the operands, and the subtrahend's sign of the result. -/
theorem subOp_of_iff_signs (a b : Word) :
    (subOp a b).2.of = true ↔ a.getLsbD 15 ≠ b.getLsbD 15 ∧ (subOp a b).1.getLsbD 15 = b.getLsbD 15 := by
  simp [subOp, resultFlags, BitVec.msb_eq_getLsbD_last]

/-- Settles O30: the 17-bit sum cut to 16 bits, and the flags made of it and of the three signs. -/
theorem addOpFlags : Obligations.AddOpFlags := fun a b =>
  ⟨by rw [addOp_fst, BitVec.toNat_add], addOp_cf_iff a b, resultFlags_zf_iff _ _ _, resultFlags_sf _ _ _,
    addOp_of_iff_signs a b⟩

theorem subOp_fst_toNat (a b : Word) : ((subOp a b).1.toNat : Int) = ((a.toNat : Int) - b.toNat) % 0x10000 := by
  have ha := a.isLt
  have hb := b.isLt
  rw [subOp_fst, BitVec.toNat_sub]
  omega

/-- Settles O31: the difference modulo 2^16, its borrow, and the flags made of it and of the three signs. -/
theorem subOpFlags : Obligations.SubOpFlags := fun a b =>
  ⟨subOp_fst_toNat a b, subOp_cf_iff a b, resultFlags_zf_iff _ _ _, resultFlags_sf _ _ _, subOp_of_iff_signs a b⟩

/-! ### Products (42_alu.md R183) -/

theorem toNat_ofInt_eq_emod (w : Nat) (z : Int) : ((BitVec.ofInt w z).toNat : Int) = z % 2 ^ w := by
  rw [BitVec.toNat_ofInt, Int.toNat_of_nonneg (Int.emod_nonneg z (by positivity))]
  simp

/-- The 32-bit product is the exact one modulo 2^32, under both values of MUL_SIGNED. -/
theorem product_toNat (signed : Bool) (a b : Word) :
    ((product signed a b).toNat : Int) =
      (if signed then a.toInt * b.toInt else (a.toNat : Int) * b.toNat) % 2 ^ 32 := by
  cases signed with
  | false => simp [product]
  | true => exact toNat_ofInt_eq_emod 32 _

theorem mulOp_fst_toNat (signed : Bool) (a b : Word) :
    (mulOp signed a b).1.toNat = (product signed a b).toNat % 0x10000 := by
  simp [mulOp]

/-- What MulOp puts in CF and in OF: the product's high word is not zero. -/
theorem highWord_bne_zero_iff (p : BitVec 32) : (p.extractLsb' 16 16 != 0) = true ↔ p.toNat / 0x10000 ≠ 0 := by
  have hp := p.isLt
  have hhigh : (p.extractLsb' 16 16).toNat = p.toNat / 0x10000 := by
    rw [BitVec.extractLsb'_toNat, Nat.shiftRight_eq_div_pow]
    omega
  rw [bne_iff_ne, ne_eq, ← BitVec.toNat_inj, hhigh]
  rfl

/-- Settles O32: the product that the words of the result and of the lost half are cut from. -/
theorem mulOpFlags : Obligations.MulOpFlags := fun signed a b =>
  ⟨(product signed a b).toNat, (product signed a b).isLt, product_toNat signed a b, mulOp_fst_toNat signed a b,
    highWord_bne_zero_iff _, highWord_bne_zero_iff _, resultFlags_zf_iff _ _ _, resultFlags_sf _ _ _,
    mulOp_fst signed a b⟩

/-! ### Quotients (42_alu.md R184) -/

theorem quotient_unsigned_toNat (a b : Word) : (quotient false a b).toNat = a.toNat / b.toNat :=
  Nat.mod_eq_of_lt ((Nat.div_le_self _ _).trans_lt a.isLt)

/-- The signed quotient modulo 2^16: 0x8000 by -1 wraps (R203). -/
theorem quotient_signed_toNat (a b : Word) :
    ((quotient true a b).toNat : Int) = a.toInt.tdiv b.toInt % 0x10000 :=
  toNat_ofInt_eq_emod 16 _

theorem divOp_eq_none_iff (signed : Bool) (a b : Word) : divOp signed a b = none ↔ b = 0x0000 := by
  simp [divOp]

/-- A result of DivOp is the quotient, with neither carry nor overflow. -/
theorem divOp_eq_some {signed : Bool} {a b : Word} {r : Word × Flags} (h : divOp signed a b = some r) :
    r = (quotient signed a b, resultFlags (quotient signed a b) false false) := by
  by_cases hb : b = 0
  · rw [(divOp_eq_none_iff signed a b).2 hb] at h
    cases h
  · rw [divOp, if_neg hb] at h
    exact (Option.some.inj h).symm

/-- Settles O33: a result is the quotient with its flags, read as DIV_SIGNED says. -/
theorem divOpQuotient : Obligations.DivOpQuotient := by
  refine fun signed a b => ⟨divOp_eq_none_iff signed a b, fun q f h => ?_⟩
  obtain ⟨rfl, rfl⟩ := Prod.mk.inj (divOp_eq_some h)
  refine ⟨?_, ?_, rfl, rfl, resultFlags_zf_iff _ _ _, resultFlags_sf _ _ _⟩
  · rintro rfl
    exact quotient_unsigned_toNat a b
  · rintro rfl
    exact quotient_signed_toNat a b

/-! ### What an instruction with an ALU result leaves (42_alu.md R180) -/

theorem State.writeAlu_eq (s : State) (d : Reg) (r : Word × Flags) : s.writeAlu d r = (s.setFlags r.2).setReg d r.1 := by
  cases d <;> rfl

theorem State.advance_writeAlu_aluResult (s : State) (len : Nat) (d : Reg) (r : Word × Flags) :
    AluResult s ((s.advance len).writeAlu d r) len d r := by
  refine ⟨?_, State.writeAlu_flags _ d r, fun a => ?_, s.writeAlu_sameOutside len d r⟩
  · rw [State.writeAlu_eq]
    exact State.setReg_writesReg
      (fun q => (State.setFlags_reg _ r.2 q).trans (s.advance_reg_eq_src len q)) d r.1
  · rw [State.writeAlu_mem, State.advance_mem]

theorem State.aluReg_aluResult (s : State) (op : Word → Word → Word × Flags) (d r : Reg) :
    AluResult s (s.aluReg op d r) 3 d (op (s.src 3 d) (s.src 3 r)) := by
  rw [State.aluReg_eq]
  exact s.advance_writeAlu_aluResult 3 d _

theorem State.aluImm_aluResult (s : State) (op : Word → Word → Word × Flags) (d : Reg) (imm : Word) :
    AluResult s (s.aluImm op d imm) 4 d (op (s.src 4 d) imm) := by
  rw [State.aluImm_eq]
  exact s.advance_writeAlu_aluResult 4 d _

theorem State.aluOne_aluResult (s : State) (op : Word → Flags → Word × Flags) (r : Reg) :
    AluResult s (s.aluOne op r) 2 r (op (s.src 2 r) s.flags) := by
  rw [State.aluOne_eq]
  exact s.advance_writeAlu_aluResult 2 r _

/-! ### ADD, SUB and MUL (42_alu.md R186 to R191) -/

/-- Settles O35: AddOp's result in both forms, their encodings and the decode faults of their formats. -/
theorem addInstructions : Obligations.AddInstructions :=
  ⟨fun d r s => ⟨_, rfl, s.aluReg_aluResult addOp d r⟩, fun d imm s => ⟨_, rfl, s.aluImm_aluResult addOp d imm⟩,
    fun _ _ => ⟨fun _ => rfl, rfl⟩, rejectsBadRegister .addReg, fun _ _ => ⟨fun _ => rfl, rfl⟩,
    rejectsBadRegister .addImm⟩

/-- Settles O36: SubOp's result in both forms, their encodings and the decode faults of their formats. -/
theorem subInstructions : Obligations.SubInstructions :=
  ⟨fun d r s => ⟨_, rfl, s.aluReg_aluResult subOp d r⟩, fun d imm s => ⟨_, rfl, s.aluImm_aluResult subOp d imm⟩,
    fun _ _ => ⟨fun _ => rfl, rfl⟩, rejectsBadRegister .subReg, fun _ _ => ⟨fun _ => rfl, rfl⟩,
    rejectsBadRegister .subImm⟩

/-- Settles O37: MulOp's result in both forms, their encodings and the decode faults of their formats. -/
theorem mulInstructions : Obligations.MulInstructions :=
  ⟨fun d r s => ⟨_, rfl, s.aluReg_aluResult (mulOp s.cfg.mulSigned) d r⟩,
    fun d imm s => ⟨_, rfl, s.aluImm_aluResult (mulOp s.cfg.mulSigned) d imm⟩,
    fun _ _ => ⟨fun _ => rfl, rfl⟩, rejectsBadRegister .mulReg, fun _ _ => ⟨fun _ => rfl, rfl⟩,
    rejectsBadRegister .mulImm⟩

/-! ### DIV (42_alu.md R192, R193, 60_exceptions.md R283) -/

/-- A division in an instruction of `len` bytes: the fatal fault with the dividend as its info, or the quotient. -/
theorem State.divide_faults_or_aluResult (s : State) (len : Nat) (d : Reg) (b : Word) :
    if b = 0x0000 then
      Faults s (s.divide (s.advance len) d b) true .divisionByZero len ((s.src len d).setWidth 17)
    else ∃ q, divOp s.cfg.divSigned (s.src len d) b = some q ∧
      AluResult s (s.divide (s.advance len) d b) len d q := by
  rw [← State.advance_reg_eq_src]
  rcases s.divide_cases (s.advance len) d b with ⟨hb, h⟩ | ⟨hb, q, hq, h⟩ <;> rw [h]
  · rw [if_pos hb]
    exact s.raiseFatal_faults _ _ _
  · rw [if_neg hb]
    exact ⟨q, hq, s.advance_writeAlu_aluResult len d q⟩

theorem execDivReg_eq (d r : Reg) (s : State) :
    exec (.divReg d r) s = .next (s.divide (s.advance 3) d (s.src 3 r)) := by
  rw [← State.advance_reg_eq_src]
  rfl

/-- Settles O38: the division in both forms, their encodings and the decode faults of their formats. -/
theorem divInstructions : Obligations.DivInstructions :=
  ⟨fun d r s => ⟨_, execDivReg_eq d r s, s.divide_faults_or_aluResult 3 d (s.src 3 r)⟩,
    fun d imm s => ⟨_, rfl, s.divide_faults_or_aluResult 4 d imm⟩,
    fun _ _ => ⟨fun _ => rfl, rfl⟩, rejectsBadRegister .divReg, fun _ _ => ⟨fun _ => rfl, rfl⟩,
    rejectsBadRegister .divImm⟩

/-! ### AND and OR (42_alu.md R185, R194 to R197) -/

theorem logicOp_eq (r : Word) : logicOp r = (r, ⟨false, r == 0, r.getLsbD 15, false⟩) := by
  rw [logicOp, resultFlags, BitVec.msb_eq_getLsbD_last]

theorem State.aluReg_logic (s : State) (op : Word → Word → Word) (d r : Reg) :
    AluResult s (s.aluReg (fun a b => logicOp (op a b)) d r) 3 d (op (s.src 3 d) (s.src 3 r),
      ⟨false, op (s.src 3 d) (s.src 3 r) == 0, (op (s.src 3 d) (s.src 3 r)).getLsbD 15, false⟩) := by
  rw [← logicOp_eq]
  exact s.aluReg_aluResult _ d r

theorem State.aluImm_logic (s : State) (op : Word → Word → Word) (d : Reg) (imm : Word) :
    AluResult s (s.aluImm (fun a b => logicOp (op a b)) d imm) 4 d
      (op (s.src 4 d) imm, ⟨false, op (s.src 4 d) imm == 0, (op (s.src 4 d) imm).getLsbD 15, false⟩) := by
  rw [← logicOp_eq]
  exact s.aluImm_aluResult _ d imm

/-- Settles O39: the two bitwise operations in both forms, their encodings and the decode faults of their formats. -/
theorem logicInstructions : Obligations.LogicInstructions :=
  ⟨fun d r s => ⟨⟨_, rfl, s.aluReg_logic (· &&& ·) d r⟩, ⟨_, rfl, s.aluReg_logic (· ||| ·) d r⟩⟩,
    fun d imm s => ⟨⟨_, rfl, s.aluImm_logic (· &&& ·) d imm⟩, ⟨_, rfl, s.aluImm_logic (· ||| ·) d imm⟩⟩,
    fun _ _ => ⟨⟨fun _ => rfl, rfl⟩, ⟨fun _ => rfl, rfl⟩⟩, fun _ _ => ⟨⟨fun _ => rfl, rfl⟩, ⟨fun _ => rfl, rfl⟩⟩,
    rejectsBadRegister .andReg, rejectsBadRegister .orReg, rejectsBadRegister .andImm, rejectsBadRegister .orImm⟩

/-! ### CMP (42_alu.md R198, R199) -/

/-- The whole effect of a comparison with the flags `f`: PC past the instruction and the flags written. -/
theorem State.advance_setFlags_compares (s : State) (len : Nat) (f : Flags) :
    WritesNoReg s ((s.advance len).setFlags f) len ∧ ((s.advance len).setFlags f).flags = f ∧
      SameOutside s ((s.advance len).setFlags f) :=
  ⟨State.writesNoReg_of_reg_eq_src fun q => (State.setFlags_reg _ f q).trans (s.advance_reg_eq_src len q), rfl,
    fun _ => rfl, ⟨rfl, rfl, rfl⟩, rfl, rfl, rfl, rfl⟩

theorem execCmpReg_eq (d r : Reg) (s : State) :
    exec (.cmpReg d r) s = .next ((s.advance 3).setFlags (subOp (s.src 3 d) (s.src 3 r)).2) := by
  rw [← State.advance_reg_eq_src, ← State.advance_reg_eq_src]
  rfl

theorem execCmpImm_eq (d : Reg) (imm : Word) (s : State) :
    exec (.cmpImm d imm) s = .next ((s.advance 4).setFlags (subOp (s.src 4 d) imm).2) := by
  rw [← State.advance_reg_eq_src]
  rfl

/-- Settles O40: the flags of the difference in both forms, their encodings and the decode faults of their formats. -/
theorem cmpInstructions : Obligations.CmpInstructions :=
  ⟨fun d r s => ⟨_, execCmpReg_eq d r s, s.advance_setFlags_compares 3 _⟩,
    fun d imm s => ⟨_, execCmpImm_eq d imm s, s.advance_setFlags_compares 4 _⟩,
    fun _ _ => ⟨fun _ => rfl, rfl⟩, rejectsBadRegister .cmpReg, fun _ _ => ⟨fun _ => rfl, rfl⟩,
    rejectsBadRegister .cmpImm⟩

/-! ### INC and DEC (42_alu.md R200, R201) -/

/-- The flags of an increment; only 0xFFFF wraps to zero. -/
theorem incOp_flags (a : Word) (f : Flags) :
    (incOp a f).2.cf = f.cf ∧ ((incOp a f).2.zf = true ↔ a = 0xFFFF) ∧
      (incOp a f).2.sf = (a + 1).getLsbD 15 ∧ ((incOp a f).2.of = true ↔ a = 0x7FFF) :=
  ⟨rfl, (resultFlags_zf_iff _ _ _).trans add_eq_zero_iff_eq_neg, resultFlags_sf _ _ _, beq_iff_eq⟩

/-- The flags of a decrement; only 0x0001 becomes zero. -/
theorem decOp_flags (a : Word) (f : Flags) :
    (decOp a f).2.cf = f.cf ∧ ((decOp a f).2.zf = true ↔ a = 0x0001) ∧
      (decOp a f).2.sf = (a - 1).getLsbD 15 ∧ ((decOp a f).2.of = true ↔ a = 0x8000) :=
  ⟨rfl, (resultFlags_zf_iff _ _ _).trans sub_eq_zero, resultFlags_sf _ _ _, beq_iff_eq⟩

/-- Settles O41: the incremented register with its flags, the encoding and the decode fault of its format. -/
theorem incAddsOne : Obligations.IncAddsOne := by
  refine ⟨fun r s => ⟨s.aluOne incOp r, rfl, ?_⟩, fun _ => ⟨fun _ => rfl, rfl⟩, rejectsBadRegister .inc⟩
  obtain ⟨hregs, hflags, houtside⟩ := s.aluOne_aluResult incOp r
  rw [hflags]
  exact ⟨hregs, houtside, incOp_flags (s.src 2 r) s.flags⟩

/-- Settles O42: the decremented register with its flags, the encoding and the decode fault of its format. -/
theorem decSubtractsOne : Obligations.DecSubtractsOne := by
  refine ⟨fun r s => ⟨s.aluOne decOp r, rfl, ?_⟩, fun _ => ⟨fun _ => rfl, rfl⟩, rejectsBadRegister .dec⟩
  obtain ⟨hregs, hflags, houtside⟩ := s.aluOne_aluResult decOp r
  rw [hflags]
  exact ⟨hregs, houtside, decOp_flags (s.src 2 r) s.flags⟩

end Sys2Proof.Machine
end

section
/-! PROOF. The family 43_stack.md: what a push leaves, with it the two pushes and CALL, and the pop that takes a push
back. -/

namespace Sys2Proof.Machine

/-! ### The registers after a push (43_stack.md R230) -/

/-- Where the registers are as an instruction reads them (R119), lowering SP by 2 leaves those of a push. -/
theorem State.setReg_sp_pushedRegs {s u : State} {len : Nat} (hu : ∀ q, u.reg q = s.src len q) :
    PushedRegs s (u.setReg .sp (s.sp - 2)) (s.nextPc len) := by
  obtain ⟨hsp, hpc, hother⟩ := State.setReg_writesReg hu .sp (s.sp - 2)
  exact ⟨hsp, hpc nofun, hother⟩

/-- A jump after a push moves PC alone. -/
theorem PushedRegs.setReg_pc {s t : State} {pc : Word} (h : PushedRegs s t pc) (target : Word) :
    PushedRegs s (t.setReg .pc target) target := by
  obtain ⟨hsp, _, hother⟩ := h
  refine ⟨hsp, rfl, fun q hq => ?_⟩
  rw [State.setReg_reg, if_neg (by rintro rfl; simp at hq)]
  exact hother q hq

/-! ### The instructions that push (43_stack.md R234, R235, 44_control.md R258) -/

/-- The end of an instruction that pushes `v` and then writes registers only (`k`): out of range neither happens. -/
theorem State.push_finish_dataWrite (s : State) (len : Nat) (v : Word) {k : State → State} {pc : Word}
    (honly : ∀ u t, OnlyRegs u t → OnlyRegs u (k t))
    (hregs : ∀ t, PushedRegs s t (s.nextPc len) → PushedRegs s (k t) pc) :
    ∃ t, ((s.advance len).push v).finish s (s.advance len) (fun _ u => k u) = .next t ∧
      DataWrite s t len ((s.sp - 2).setWidth 17) v (PushedRegs s t pc) := by
  refine Access.finish_dataWrite (f := fun u => u.setReg .sp (s.sp - 2)) (regs := fun t => PushedRegs s t pc) ?_
    (fun u => honly u _ ((OnlyRegs.refl u).setReg .sp _)) fun u hu => hregs _ (State.setReg_sp_pushedRegs hu)
  rw [toNat_setWidth_17]
  exact (s.advance len).push_cases v

theorem State.push_finish_pushes (s : State) (len : Nat) (v : Word) :
    ∃ t, ((s.advance len).push v).finish s (s.advance len) (fun _ u => u) = .next t ∧
      DataWrite s t len ((s.sp - 2).setWidth 17) v (PushedRegs s t (s.nextPc len)) :=
  s.push_finish_dataWrite len v (fun _ _ => id) fun _ => id

theorem execPushReg_dataWrite (r : Reg) (s : State) :
    ∃ t, exec (.pushReg r) s = .next t ∧
      DataWrite s t 2 ((s.sp - 2).setWidth 17) (s.src 2 r) (PushedRegs s t (s.nextPc 2)) := by
  rw [← State.advance_reg_eq_src]
  exact s.push_finish_pushes 2 _

/-- Settles O43: the push of the source's value, read after PC was moved and before SP is; the encoding; the decode fault
of its format. -/
theorem pushRegPushesARegister : Obligations.PushRegPushesARegister :=
  ⟨execPushReg_dataWrite, fun _ => ⟨fun _ => rfl, rfl⟩, rejectsBadRegister .pushReg⟩

/-- Settles O44: the push of the immediate, and its encoding. -/
theorem pushImmPushesAWord : Obligations.PushImmPushesAWord :=
  ⟨fun imm s => s.push_finish_pushes 3 imm, fun _ => ⟨fun _ => rfl, rfl⟩⟩

/-- CALL: the push of the next instruction's address, and only after it the jump. -/
theorem execCall_dataWrite (target : Word) (s : State) :
    ∃ t, exec (.call target) s = .next t ∧
      DataWrite s t 3 ((s.sp - 2).setWidth 17) (s.nextPc 3) (PushedRegs s t target) :=
  s.push_finish_dataWrite 3 (s.nextPc 3) (fun _ _ h => h.setReg .pc target) fun _ h => h.setReg_pc target

/-- Settles O49: the push and the jump of CALL, and its encoding. -/
theorem callPushesTheReturnAddress : Obligations.CallPushesTheReturnAddress :=
  ⟨execCall_dataWrite, fun _ => ⟨fun _ => rfl, rfl⟩⟩

/-! ### A pop after a push (43_stack.md R236) -/

/-- A state with SP, the array and the configuration as a push of `v` at `s` into the array left them pops `v` and the
stack pointer from before the push. -/
theorem State.pop_of_stored {s t : State} {v : Word} (hsp : t.sp = s.sp - 2)
    (hmem : t.mem = s.mem.storeWord (s.sp - 2).toNat v) (hcfg : t.cfg = s.cfg) (hle : (s.sp - 2).toNat ≤ 0xFFFE)
    (hp : ¬ s.PortAccess ((s.sp - 2).setWidth 17)) : t.pop = .done v (t.setReg .sp s.sp) := by
  have hload : t.wordAt t.sp.toNat = v := by
    rw [← State.wordAt_eq, hmem, hsp, Memory.loadWord_storeWord]
  have hpt : ¬ t.PortAccess (t.sp.setWidth 17) := by
    rwa [hsp, State.PortAccess, hcfg]
  rw [t.pop_loads (by rwa [hsp]) hpt, hload, hsp, BitVec.sub_add_cancel]

/-- PUSH_REG into the array, outright. -/
theorem execPushReg_stores (r : Reg) (s : State) (hle : (s.sp - 2).toNat ≤ 0xFFFE)
    (hp : ¬ s.PortAccess ((s.sp - 2).setWidth 17)) :
    exec (.pushReg r) s =
      .next (((s.advance 2).setMem (s.mem.storeWord (s.sp - 2).toNat (s.src 2 r))).setReg .sp (s.sp - 2)) := by
  show execPushReg r s = _
  simp only [execPushReg, State.advance_reg_eq_src, (s.advance 2).push_stores (s.src 2 r) hle hp]
  rfl

/-- POP of a word read with no other effect than on SP, outright: SP is written and then the destination. -/
theorem execPop_of_done {d : Reg} {t : State} {v sp : Word}
    (h : (t.advance 2).pop = .done v ((t.advance 2).setReg .sp sp)) :
    exec (.pop d) t = .next (((t.advance 2).setReg .sp sp).setReg d v) := by
  show execPop d t = _
  simp only [execPop, h]
  rfl

/-- Settles O46: the pop reads the word that the push stored, at the SP that the push left. -/
theorem pushThenPopRestores : Obligations.PushThenPopRestores := by
  intro r d s hd hle hp
  refine ⟨_, _, execPushReg_stores r s hle hp, execPop_of_done (State.pop_of_stored rfl rfl rfl hle hp), ?_, ?_⟩
  · rw [State.setReg_reg, if_pos rfl]
  · rw [State.setReg_sp, if_neg hd]
    rfl

end Sys2Proof.Machine
end

section
/-! PROOF. The family 44_control.md: the jumps with their conditions and their frame, a RET after a CALL, and HLT. -/

namespace Sys2Proof.Machine

/-! ### Jumps (44_control.md R250, R252 to R257) -/

/-- JG jumps on the flags of the signed "greater" (R250). -/
theorem Flags.greater_iff (f : Flags) : f.greater = true ↔ f.zf = false ∧ f.sf = f.of := by
  simp [Flags.greater]

/-- JGE jumps on the flags of the signed "greater or equal" (R250). -/
theorem Flags.greaterEqual_iff (f : Flags) : f.greaterEqual = true ↔ f.sf = f.of := beq_iff_eq

/-- JA jumps on the flags of the unsigned "above" (R250). -/
theorem Flags.above_iff (f : Flags) : f.above = true ↔ f.cf = false ∧ f.zf = false := by
  simp [Flags.above]

/-- JAE jumps on the flags of the unsigned "above or equal" (R250). -/
theorem Flags.aboveEqual_iff (f : Flags) : f.aboveEqual = true ↔ f.cf = false := by
  simp [Flags.aboveEqual]

/-- A jump, taken or not, writes PC and nothing else. -/
theorem State.jumpIf_frame (s : State) (c : Bool) (target : Word) :
    SameRegs [.pc] s (s.jumpIf c target) ∧ (s.jumpIf c target).flags = s.flags ∧ SameOutside s (s.jumpIf c target) := by
  rw [State.jumpIf_eq]
  have honly := (OnlyRegs.refl s).setReg .pc (if c then target else s.nextPc 3)
  refine ⟨fun q hq => ?_, honly.flags, honly.sameOutside⟩
  rw [State.setReg_reg, if_neg (by simpa using hq)]

/-- The whole effect of a jump whose test `c` decides the condition `p`. -/
theorem State.jumpIf_jumps (s : State) (target : Word) {c : Bool} {p : Prop} [Decidable p] (hc : c = true ↔ p) :
    ((s.jumpIf c target).pc = if p then target else s.nextPc 3) ∧
      SameRegs [.pc] s (s.jumpIf c target) ∧ (s.jumpIf c target).flags = s.flags ∧
      SameOutside s (s.jumpIf c target) :=
  ⟨by simp only [State.jumpIf_pc, hc], s.jumpIf_frame c target⟩

/-- Settles O47: the test of each jump decides its condition on the flags, and a jump writes PC alone; the encodings. -/
theorem jumpsFollowTheirConditions : Obligations.JumpsFollowTheirConditions := fun target s =>
  ⟨⟨_, rfl, rfl, s.jumpIf_frame true target⟩, ⟨_, rfl, s.jumpIf_jumps target Iff.rfl⟩,
    ⟨_, rfl, s.jumpIf_jumps target s.flags.greater_iff⟩, ⟨_, rfl, s.jumpIf_jumps target s.flags.greaterEqual_iff⟩,
    ⟨_, rfl, s.jumpIf_jumps target s.flags.above_iff⟩, ⟨_, rfl, s.jumpIf_jumps target s.flags.aboveEqual_iff⟩,
    ⟨fun _ => rfl, rfl⟩, ⟨fun _ => rfl, rfl⟩, ⟨fun _ => rfl, rfl⟩, ⟨fun _ => rfl, rfl⟩, ⟨fun _ => rfl, rfl⟩,
    ⟨fun _ => rfl, rfl⟩⟩

/-! ### A RET after a CALL (44_control.md R258, R259) -/

/-- CALL with the return address pushed into the array, outright. -/
theorem execCall_stores (target : Word) (s : State) (hle : (s.sp - 2).toNat ≤ 0xFFFE)
    (hp : ¬ s.PortAccess ((s.sp - 2).setWidth 17)) :
    exec (.call target) s =
      .next ((((s.advance 3).setMem (s.mem.storeWord (s.sp - 2).toNat (s.nextPc 3))).setReg .sp (s.sp - 2)).setReg
        .pc target) := by
  show execCall target s = _
  simp only [execCall, (s.advance 3).push_stores _ hle hp]
  rfl

/-- RET of a word read with no other effect than on SP, outright: SP is written and then PC. -/
theorem execRet_of_done {t : State} {v sp : Word}
    (h : (t.advance 1).pop = .done v ((t.advance 1).setReg .sp sp)) :
    exec .ret t = .next (((t.advance 1).setReg .sp sp).setReg .pc v) := by
  show execRet t = _
  simp only [execRet, h]
  rfl

/-- Settles O51: the RET pops the return address that the CALL stored, at the SP that the CALL left. -/
theorem callThenRetResumes : Obligations.CallThenRetResumes := by
  intro target s hle hp
  refine ⟨_, execCall_stores target s hle hp, fun t' hsp hmem hcfg => ?_⟩
  have hpop : (t'.advance 1).pop = .done (s.nextPc 3) ((t'.advance 1).setReg .sp s.sp) :=
    State.pop_of_stored hsp hmem hcfg hle hp
  exact ⟨_, execRet_of_done hpop, rfl, rfl⟩

/-! ### HLT (44_control.md R260) -/

/-- Settles O52: HLT moves PC past its byte and writes the halted flag and the engine state, and a step in Halted does
nothing; the encoding. -/
theorem hltHalts : Obligations.HltHalts := by
  refine ⟨fun s => ⟨_, rfl, rfl, rfl, State.writesNoReg_of_reg_eq_src fun q => ?_, rfl, fun _ => rfl, ⟨rfl, rfl, rfl⟩,
    rfl, rfl, step_of_not_running nofun⟩, fun _ => rfl, rfl⟩
  rw [← State.advance_reg_eq_src]
  cases q <;> rfl

end Sys2Proof.Machine
end

section
/-! PROOF. The family 70_reset_and_hazards.md: the power-on state, what the loader leaves of an image, and where a booted
machine begins. -/

namespace Sys2Proof.Machine

/-! ### The loader (70_reset_and_hazards.md R313) -/

theorem State.load_nil (s : State) : s.load [] = (s, .failed) := rfl

theorem State.load_of_ne_nil {image : List Byte} (h : image ≠ []) (s : State) :
    s.load image = (s.setMem (s.mem.writeBytes 0 (image.take 0x10000)), .loaded) := if_neg h

/-- The loader touches nothing but memory, failed or not. -/
theorem State.load_frame (s : State) (image : List Byte) :
    (s.load image).1 = s.setMem (s.load image).1.mem := by
  by_cases h : image = []
  · rw [h, s.load_nil]
    rfl
  · rw [s.load_of_ne_nil h]
    rfl

/-- Past its length an image reads 0x00, so cutting it shows only from address 65536 on. -/
theorem Memory.read_writeBytes_nil_take (image : List Byte) (n a : Nat) :
    (Memory.writeBytes [] 0 (image.take n)).read a = if a < n then image.getD a 0x00 else 0x00 := by
  rw [Memory.read_writeBytes, List.length_take, Memory.read_nil, Nat.sub_zero]
  by_cases hn : a < n
  · rw [if_pos hn]
    by_cases hl : a < image.length
    · rw [if_pos (by omega), List.getD_eq_getElem?_getD, List.getElem?_take_of_lt hn, ← List.getD_eq_getElem?_getD]
    · rw [if_neg (by omega), List.getD_eq_default _ _ (by omega)]
  · rw [if_neg (by omega), if_neg hn]

/-- Every byte of memory after reset and load; an empty image leaves 0x00 everywhere. -/
theorem State.applyReset_load_read (s : State) (image : List Byte) (a : Nat) :
    (s.applyReset.load image).1.mem.read a = if a < 0x10000 then image.getD a 0x00 else 0x00 := by
  by_cases h : image = []
  · rw [h, State.load_nil, List.getD_nil, ite_self]
    rfl
  · rw [State.load_of_ne_nil h]
    exact Memory.read_writeBytes_nil_take image 0x10000 a

/-- Settles O55: the loader's two cases, with every byte it leaves and its frame. -/
theorem loaderPlacesTheImage : Obligations.LoaderPlacesTheImage := by
  refine fun s image => ⟨?_, fun h => ⟨(s.applyReset.load image).1, ?_, s.applyReset_load_read image,
    s.applyReset.load_frame image⟩⟩
  · rintro rfl
    exact s.applyReset.load_nil
  · rw [State.load_of_ne_nil h]

/-! ### The power-on state (70_reset_and_hazards.md R310) -/

/-- A new machine is a machine reset. -/
theorem State.applyReset_reset : State.reset.applyReset = State.reset := rfl

theorem State.applyReset_reg (s : State) (q : Reg) :
    s.applyReset.reg q = if q = .sp ∨ q = .fp then 0xFFFE else 0x0000 := by
  cases q <;> rfl

/-- Settles O10: both states are the result of a reset, which writes every piece of architectural state. -/
theorem resetIsThePowerOnState : Obligations.ResetIsThePowerOnState := by
  intro s h
  have hreset : ∃ u : State, s = u.applyReset :=
    h.elim (fun hs => ⟨State.reset, hs.trans State.applyReset_reset.symm⟩) id
  obtain ⟨u, rfl⟩ := hreset
  exact ⟨u.applyReset_reg, rfl, rfl, rfl, Memory.read_nil⟩

/-! ### The entry point (70_reset_and_hazards.md R312, R314) -/

theorem State.enter_pc (s : State) : s.enter.pc = if s.cfg.entryHeader then s.mem.loadWord 0 else s.pc := by
  unfold State.enter
  split <;> rfl

/-- The word at 0x0000 after reset and load. -/
theorem State.applyReset_load_loadWord_zero (s : State) (image : List Byte) :
    (s.applyReset.load image).1.mem.loadWord 0 = wordOfBytes (image.getD 0 0x00) (image.getD 1 0x00) := by
  simp only [Memory.loadWord, s.applyReset_load_read, Nat.zero_add, Nat.reduceLT, if_true]

/-- The address of the first instruction, for every image and both values of ENTRY_HEADER. -/
theorem State.boot_pc (s : State) (image : List Byte) :
    (s.boot image).pc =
      if s.cfg.entryHeader then wordOfBytes (image.getD 0 0x00) (image.getD 1 0x00) else 0x0000 := by
  have hcfg : (s.applyReset.load image).1.cfg = s.cfg := by rw [State.load_frame]; rfl
  have hpc : (s.applyReset.load image).1.pc = 0x0000 := by rw [State.load_frame]; rfl
  rw [State.boot, State.enter_pc, hcfg, hpc, s.applyReset_load_loadWord_zero]

/-- Settles O56: the first instruction's address, with the header's word read as its two bytes. -/
theorem entryPoint : Obligations.EntryPoint := by
  intro s image
  rw [s.boot_pc]
  refine ⟨fun h => ?_, fun h => ?_⟩
  · rw [h]
    rfl
  · rw [if_pos h, wordOfBytes_toNat]

end Sys2Proof.Machine
end
